-- ==== Sys2Proof/Word.lean ====
section
/-! DEFINITION. The word of the Intcode CPU core (spec/00_scope.md R4), the two parameter modes and the
source parameter (spec/20_memory.md R35, spec/30_encoding.md R53). -/

namespace Sys2Proof

/-- A word: a signed 64-bit two's-complement integer (R4, decision D1: `XLEN = 64`).  Its value as the
mathematical integer the rules speak of is `toInt` (DESIGN CHOICE: the 64-bit instance, notes/assumptions/1.md). -/
abbrev Word := BitVec 64

/-- `WMIN = -2^63`, the least word (R4). -/
def wmin : Int := -9223372036854775808

/-- `WMAX = 2^63 - 1`, the greatest word (R4). -/
def wmax : Int := 9223372036854775807

/-- A parameter mode: digit 0 is POSITION, digit 1 is IMMEDIATE (R53). -/
inductive Mode where
  /-- The parameter is an address; its value is the cell it addresses. -/
  | position
  /-- The parameter is its own value. -/
  | immediate
deriving DecidableEq, Repr

/-- A source parameter: the raw parameter word and the mode through which it is read (R35, R59). -/
structure Source where
  mode : Mode
  param : Word
deriving DecidableEq, Repr

end Sys2Proof
end

