-- ==== Sys2Proof/Syntax.lean ====
section
/-! DEFINITION. The nine instructions of spec/opcode_table.json, one constructor per row (spec/30_encoding.md R54). -/

namespace Sys2Proof

/-- A decoded instruction with its parameter words.  Every constructor keeps all three mode digits of its instruction
word, those of destination and unused positions too: they are legal as 0 and as 1 and have no effect (R57, R58).  `a` and
`b` are source parameters with their modes (`ma`, `mb`); `dst` is a destination parameter, always the address itself (R36). -/
inductive Instr where
  /-- ADD a, b, dst (opcode 1, R90). -/
  | add (a b : Source) (md : Mode) (dst : Word)
  /-- MUL a, b, dst (opcode 2, R91). -/
  | mul (a b : Source) (md : Mode) (dst : Word)
  /-- IN dst (opcode 3, INPUT, R100). -/
  | input (ma mb md : Mode) (dst : Word)
  /-- OUT a (opcode 4, OUTPUT, R101). -/
  | output (a : Source) (mb md : Mode)
  /-- JT a, b (opcode 5, JUMP-IF-TRUE, R110): `a` is tested, `b` is the target. -/
  | jumpIfTrue (a b : Source) (md : Mode)
  /-- JF a, b (opcode 6, JUMP-IF-FALSE, R111): `a` is tested, `b` is the target. -/
  | jumpIfFalse (a b : Source) (md : Mode)
  /-- LT a, b, dst (opcode 7, LESS-THAN, R120). -/
  | lessThan (a b : Source) (md : Mode) (dst : Word)
  /-- EQ a, b, dst (opcode 8, EQUALS, R121). -/
  | equals (a b : Source) (md : Mode) (dst : Word)
  /-- HALT (opcode 99, R130). -/
  | halt (ma mb md : Mode)
deriving DecidableEq, Repr

end Sys2Proof
end

