-- ==== Sys2Proof/Machine/State.lean ====
section
/-! DEFINITION. The state of the core as plain data (spec/10_state.md R10 to R25), the reasons a step or a host
transaction can stop, and the state after reset. -/

namespace Sys2Proof.Machine

/-- The run status (R13). -/
inductive Status where
  /-- The sequencer will perform the next step. -/
  | running
  /-- An INPUT at `pc` has asked the input source for a value and it has not arrived. -/
  | waitInput
  /-- Terminal: a HALT was executed. -/
  | halted
  /-- Terminal: `pc` was found outside `[0, N)`; not an error. -/
  | offEnd
  /-- Terminal: a fault aborted the run. -/
  | faulted
deriving DecidableEq, Repr

/-- The fault-kind register (R10, R14, R146). -/
inductive FaultKind where
  | none
  | decodeFault
  | unknownOpcode
  | addressFault
  | overflowFault
  | inputAbort
deriving DecidableEq, Repr

/-- An answer on the input port: `value(v)` or `abort` (R20).  `α` is the type of words. -/
inductive Answer (α : Type) where
  | value (v : α)
  | abort
deriving DecidableEq, Repr

/-- One entry of the input source's oracle, "a sequence of words, possibly with waits and aborts" (R6). -/
inductive InputEvent (α : Type) where
  /-- The source has nothing yet: one more step of waiting. -/
  | wait
  /-- The source answers the pending request. -/
  | answer (a : Answer α)
deriving DecidableEq, Repr

/-- One transaction on the input or output port (R20, R21). -/
inductive PortEvent (α : Type) where
  /-- The core asks the input source for a word. -/
  | request
  /-- The input source answers the outstanding request. -/
  | answer (a : Answer α)
  /-- The core hands a word to the output sink. -/
  | emit (v : α)
deriving DecidableEq, Repr

/-- The cells of `mem` as (address, word) pairs: addresses strictly rising, no pair whose word is 0, which is what an
unlisted address reads as (notes/assumptions/3.md).  The unit is the cell, a whole word: this machine has no bytes (R31). -/
abbrev Memory := List (Nat × Word)

/-- The complete state (R10), with the run's memory length `N` (R5), its input source (R6) and the record of its port
transactions (R25). -/
structure State where
  /-- `mem[0..N-1]` (R11). -/
  mem : Memory
  /-- `N`, the length of the launched program; constant for the whole run (R5). -/
  size : Nat
  /-- The program counter, one word wide (R12). -/
  pc : Word
  /-- The run status (R13). -/
  status : Status
  /-- The three fault-report registers (R14). -/
  faultKind : FaultKind
  faultPc : Word
  faultInfo : Word
  /-- What the input source will still say, next first; an empty list is a source that never answers (R6, R8).
  The model's own field (notes/assumptions/8.md). -/
  input : List (InputEvent Word)
  /-- The port transactions of this run, oldest first: the input and the output sequence of R25 are read off it.
  The model's own field (notes/assumptions/8.md). -/
  trace : List (PortEvent Word)
deriving DecidableEq, Repr

/-- Reasons for which the machine stops outside its own states: none.  Every fault of the spec is a state the core
enters (`status = FAULTED` with its report, R148) and every end of a run is a status (R175), so a step always answers a
next state (notes/assumptions/10.md). -/
inductive Fault
deriving DecidableEq, Repr

/-- Reasons for which the model gives no meaning. -/
inductive Refusal where
  /-- An instruction without a meaning; raised by no arm of `exec`.  Safe. -/
  | notModelled (mnemonic : String)
  /-- A launch whose program is longer than `MEM_CAP`, raised by `launch` (R172).  Safe: the spec refuses it too. -/
  | launchTooLong
  /-- A launch whose program or start pc holds an integer that is not a word, raised by `launch` (R170, R172).  Safe: the
  spec refuses it too. -/
  | launchNotWords
  /-- A launch while a run is in progress, raised by `launch`: the host must not do it (R182) and the spec gives no effect
  (spec/93_implementation_defined.md U15).  Safe. -/
  | launchDuringRun
  /-- An answer of the input source with no request outstanding, or a second one, raised by `deliver`: the source must not
  give it (R182) and the spec gives no effect (U15).  Safe. -/
  | answerWithoutRequest
deriving DecidableEq, Repr

/-- Reset: the state right after the launch of the empty program at the default start pc (R23, R170; `N` may be 0, R5),
with a source that never answers.  Every field but `mem`, `size` and `input` has the value R23 gives it whatever the
program is; those three are the launch's own arguments, at their empty values (notes/assumptions/4.md). -/
def State.reset : State where
  mem := []
  size := 0
  pc := 0#64
  status := .running
  faultKind := .none
  faultPc := 0#64
  faultInfo := 0#64
  input := []
  trace := []

end Sys2Proof.Machine
end

