-- ==== Sys2Proof/Machine/Ops.lean ====
section
/-! DEFINITION. The named operations of the machine: memory (spec/20_memory.md R33, R34), raising a fault
(spec/60_exceptions.md R148), moving the pc (spec/10_state.md R12), and the port transactions (R20, R21). -/

namespace Sys2Proof.Machine

/-! ### Cells -/

/-- The word at an address; an unlisted address reads as 0. -/
def Memory.read : Memory → Nat → Word
  | [], _ => 0#64
  | (k, w) :: m, a => if k = a then w else Memory.read m a

/-- Put a word at an address, keeping the list's canonical form: writing 0 unlists the address. -/
def Memory.write : Memory → Nat → Word → Memory
  | [], a, v => if v = 0#64 then [] else [(a, v)]
  | (k, w) :: m, a, v =>
    if k < a then (k, w) :: Memory.write m a v
    else if k = a then (if v = 0#64 then m else (a, v) :: m)
    else (if v = 0#64 then (k, w) :: m else (a, v) :: (k, w) :: m)

/-- Addresses strictly rising from `lo` on, and no entry equal to 0. -/
def Memory.wfFrom : Nat → Memory → Bool
  | _, [] => true
  | lo, (k, w) :: m => decide (lo ≤ k) && decide (w ≠ 0#64) && Memory.wfFrom (k + 1) m

/-- The canonical form. -/
def Memory.wf (m : Memory) : Bool := Memory.wfFrom 0 m

/-- Every listed address lies below `n`. -/
def Memory.below (n : Nat) (m : Memory) : Bool := m.all fun c => decide (c.1 < n)

/-- The canonical memory whose cells from `a` on are the given words. -/
def Memory.ofWords : Nat → List Word → Memory
  | _, [] => []
  | a, v :: vs => if v = 0#64 then Memory.ofWords (a + 1) vs else (a, v) :: Memory.ofWords (a + 1) vs

/-- Write consecutive cells from `a` on. -/
def Memory.writeWords : Memory → Nat → List Word → Memory
  | m, _, [] => m
  | m, a, v :: vs => Memory.writeWords (m.write a v) (a + 1) vs

/-- The words of the `n` cells from `a` on, in address order. -/
def Memory.cells (m : Memory) (a n : Nat) : List Word := (List.range n).map fun i => m.read (a + i)

/-! ### Faults -/

/-- A fault with its information, as in the spec's `raise F(info)`. -/
inductive Trap where
  /-- `DecodeFault(w)` (R141). -/
  | decodeFault (w : Word)
  /-- `UnknownOpcode(w)` (R142). -/
  | unknownOpcode (w : Word)
  /-- `AddressFault(a)` (R143). -/
  | addressFault (a : Word)
  /-- `OverflowFault(op)`, `op` the opcode, 1 or 2 (R144). -/
  | overflowFault (op : Word)
  /-- `InputAbort(0)` (R145). -/
  | inputAbort
deriving DecidableEq, Repr

/-- What `fault_kind` records (R146). -/
def Trap.kind : Trap → FaultKind
  | .decodeFault _ => .decodeFault
  | .unknownOpcode _ => .unknownOpcode
  | .addressFault _ => .addressFault
  | .overflowFault _ => .overflowFault
  | .inputAbort => .inputAbort

/-- What `fault_info` records (R146). -/
def Trap.info : Trap → Word
  | .decodeFault w => w
  | .unknownOpcode w => w
  | .addressFault a => a
  | .overflowFault op => op
  | .inputAbort => 0#64

/-- `raise F(info)`: the status and the three report registers, and nothing else (R148).  There is no handler and no
return (R150). -/
def raise (t : Trap) (s : State) : State :=
  { s with status := .faulted, faultKind := t.kind, faultPc := s.pc, faultInfo := t.info }

/-! ### The access primitives -/

/-- `InRange(a)`: `0 <= a < N` on the signed value of `a` (R30, R46). -/
abbrev State.InRange (s : State) (a : Word) : Prop := 0 ≤ a.toInt ∧ a.toInt < s.size

/-- The cell index of an in-range address. -/
def cellIndex (a : Word) : Nat := a.toInt.toNat

/-- `MemRead(a, 1)` (R33). -/
def memRead (s : State) (a : Word) : Except Trap Word :=
  if s.InRange a then .ok (s.mem.read (cellIndex a)) else .error (.addressFault a)

/-- `MemWrite(a, 1, v)` (R34): a faulting write stores nothing, and memory never grows (R47). -/
def memWrite (s : State) (a v : Word) : Except Trap State :=
  if s.InRange a then .ok { s with mem := s.mem.write (cellIndex a) v } else .error (.addressFault a)

/-! ### The program counter and the status -/

/-- `pc <- t` (R12, R112): any word, not checked. -/
def setPc (t : Word) (s : State) : State := { s with pc := t }

/-- `pc <- pc + len`, the instruction's length in cells (R12).  In range of `N <= WMAX - 3` it is exact (R7); beyond it the 64-bit
sum wraps, in states no run reaches (notes/assumptions/11.md). -/
def advance (len : Nat) (s : State) : State := setPc (s.pc + BitVec.ofNat 64 len) s

/-- The run ends because `pc` is outside memory (R71): the status alone changes. -/
def fallOffEnd (s : State) : State := { s with status := .offEnd }

/-- `status <- HALTED` (R130): `pc` stays at the HALT's index. -/
def halt (s : State) : State := { s with status := .halted }

/-- The single write of an instruction, and then the pc's advance by its length; the pc moves only if the write did not
fault (R42, R77). -/
def storeResult (dst r : Word) (len : Nat) (s : State) : State :=
  match memWrite s dst r with
  | .error t => raise t s
  | .ok s' => advance len s'

/-! ### Ports -/

/-- `Emit(v)`: one transaction on the output port, always accepted (R21, R101). -/
def emit (v : Word) (s : State) : State := { s with trace := s.trace ++ [.emit v] }

/-- The first half of `InputTake()`: `status <- WAIT_INPUT` and one request on the input port (R102). -/
def requestInput (s : State) : State := { s with status := .waitInput, trace := s.trace ++ [.request] }

/-- The answer `a` is taken from the port: the rest of the oracle is `rest` (R20, R102). -/
def takeAnswer (a : Answer Word) (rest : List (InputEvent Word)) (s : State) : State :=
  { s with input := rest, trace := s.trace ++ [.answer a] }

/-- The second half of `InputTake()` and what INPUT does with the value (R100, R102, R104): while the source has nothing the
core waits and nothing but the oracle moves on; a value makes the core run again and is stored at `dst`; an abort is a
fault.  The destination is checked by the write, when the value has already been taken (decision D10). -/
def awaitInput (dst : Word) (s : State) : State :=
  match s.input with
  | [] => s
  | .wait :: rest => { s with input := rest }
  | .answer (.value v) :: rest =>
    storeResult dst v 2 { takeAnswer (.value v) rest s with status := .running }
  | .answer .abort :: rest => raise .inputAbort (takeAnswer .abort rest s)

/-- A step in `WAIT_INPUT`: the pending INPUT's destination is taken from `mem[pc+1]` again, which cannot have changed
(R18, R70, notes/assumptions/9.md). -/
def resumeInput (s : State) : State :=
  match memRead s (s.pc + 1#64) with
  | .error t => raise t s
  | .ok dst => awaitInput dst s

end Sys2Proof.Machine
end

