-- ==== Sys2Proof/Machine/Flags.lean ====
section
/-! DEFINITION. The machine has no flags (spec/10_state.md R16).  What other machines compute into flags stands here: the
overflow check of a result (spec/41_arithmetic.md R92), the comparison results (spec/44_compare.md R122) and the conditions of
the jumps (spec/43_jumps.md R110, R111), all on the signed values of words. -/

namespace Sys2Proof.Machine

/-- An exact result is a word: `WMIN <= r <= WMAX` (R4, R92). -/
def isWord (r : Int) : Bool := decide (wmin ≤ r) && decide (r ≤ wmax)

/-- The exact result as a word, or `OverflowFault(op)`; never wrapped, saturated or truncated (R92, R144). -/
def narrow (op : Word) (r : Int) : Except Trap Word :=
  if isWord r then .ok (BitVec.ofInt 64 r) else .error (.overflowFault op)

/-- ADD's result (R90): the exact sum, checked. -/
def sumOf (va vb : Word) : Except Trap Word := narrow 1#64 (va.toInt + vb.toInt)

/-- MUL's result (R91): the exact double-width product, checked. -/
def productOf (va vb : Word) : Except Trap Word := narrow 2#64 (va.toInt * vb.toInt)

/-- The word 1 for true and 0 for false (R122). -/
def truthWord (b : Bool) : Word := if b then 1#64 else 0#64

/-- LESS-THAN's result (R120): signed, strict; it never traps. -/
def lessThanOf (va vb : Word) : Except Trap Word := .ok (truthWord (decide (va.toInt < vb.toInt)))

/-- EQUALS' result (R121); it never traps. -/
def equalsOf (va vb : Word) : Except Trap Word := .ok (truthWord (decide (va.toInt = vb.toInt)))

/-- JUMP-IF-TRUE's condition: strictly positive, so a negative value does not jump (R110, spec/90_conflicts.md C1). -/
def isPositive (v : Word) : Bool := decide (0 < v.toInt)

/-- JUMP-IF-FALSE's condition (R111). -/
def isZero (v : Word) : Bool := decide (v.toInt = 0)

end Sys2Proof.Machine
end

