-- ==== Sys2Proof/Machine/Operands.lean ====
section
/-! DEFINITION. The operand forms: a source parameter read through its mode (spec/20_memory.md R35), and the
resolution of the two sources of an instruction, a before b (spec/40_step.md R76). -/

namespace Sys2Proof.Machine

/-- `Resolve(m, p)`: IMMEDIATE is the parameter itself and never faults (R37); POSITION is one level of indirection (R35). -/
def resolve (s : State) (a : Source) : Except Trap Word :=
  match a.mode with
  | .immediate => .ok a.param
  | .position => memRead s a.param

/-- Resolve the one source of an instruction, then go on with its value. -/
def withSource (a : Source) (s : State) (k : Word → State) : State :=
  match resolve s a with
  | .error t => raise t s
  | .ok va => k va

/-- Resolve source a, then source b, both before the effect, whether or not the effect will use them (R76, R113). -/
def withSources (a b : Source) (s : State) (k : Word → Word → State) : State :=
  match resolve s a with
  | .error t => raise t s
  | .ok va =>
    match resolve s b with
    | .error t => raise t s
    | .ok vb => k va vb

/-- A three-parameter instruction: both sources, the result of `f` (which may trap), the single write at `dst`, and the
pc's advance by 4 (R42, R76, R77). -/
def binary (f : Word → Word → Except Trap Word) (a b : Source) (dst : Word) (s : State) : State :=
  withSources a b s fun va vb =>
    match f va vb with
    | .error t => raise t s
    | .ok r => storeResult dst r 4 s

/-- A conditional jump: both sources, then `pc <- vb` if the condition holds of `va`, else `pc <- pc + 3` (R110, R111,
R112). -/
def jump (cond : Word → Bool) (a b : Source) (s : State) : State :=
  withSources a b s fun va vb => if cond va then setPc vb s else advance 3 s

end Sys2Proof.Machine
end

