-- ==== Sys2Proof/Machine/Arithmetic.lean ====
section
/-! DEFINITION. ADD and MUL (spec/41_arithmetic.md). -/

namespace Sys2Proof.Machine

/-- ADD a, b, dst (R90).  The digit `md` has no effect (R58). -/
def execAdd (a b : Source) (dst : Word) (s : State) : Host.Outcome State Fault Refusal :=
  .next (binary sumOf a b dst s)

/-- MUL a, b, dst (R91).  The digit `md` has no effect (R58). -/
def execMul (a b : Source) (dst : Word) (s : State) : Host.Outcome State Fault Refusal :=
  .next (binary productOf a b dst s)

end Sys2Proof.Machine
end

