-- ==== Sys2Proof/Machine/Compare.lean ====
section
/-! DEFINITION. LESS-THAN and EQUALS (spec/44_compare.md). -/

namespace Sys2Proof.Machine

/-- LT a, b, dst (R120). -/
def execLessThan (a b : Source) (dst : Word) (s : State) : Host.Outcome State Fault Refusal :=
  .next (binary lessThanOf a b dst s)

/-- EQ a, b, dst (R121). -/
def execEquals (a b : Source) (dst : Word) (s : State) : Host.Outcome State Fault Refusal :=
  .next (binary equalsOf a b dst s)

end Sys2Proof.Machine
end

