-- ==== Sys2Proof/Machine/Halt.lean ====
section
/-! DEFINITION. HALT (spec/45_halt.md). -/

namespace Sys2Proof.Machine

/-- HALT (R130): `status <- HALTED`; memory and pc stay.  No mode digit has an effect (R58). -/
def execHalt (s : State) : Host.Outcome State Fault Refusal :=
  .next (halt s)

end Sys2Proof.Machine
end

