-- ==== Sys2Proof/Machine/InputOutput.lean ====
section
/-! DEFINITION. INPUT and OUTPUT (spec/42_io.md). -/

namespace Sys2Proof.Machine

/-- IN dst (R100, R102): the request, and then the wait, which is empty when the source has its answer ready
(R102 lets a model take it as one step then, notes/assumptions/12.md).  No mode digit has an effect (R57, R58). -/
def execInput (dst : Word) (s : State) : Host.Outcome State Fault Refusal :=
  .next (awaitInput dst (requestInput s))

/-- OUT a (R101): the source, one `Emit`, the pc's advance by 2; it never waits. -/
def execOutput (a : Source) (s : State) : Host.Outcome State Fault Refusal :=
  .next (withSource a s fun va => advance 2 (emit va s))

end Sys2Proof.Machine
end

