-- ==== Sys2Proof/Machine/Jumps.lean ====
section
/-! DEFINITION. JUMP-IF-TRUE and JUMP-IF-FALSE (spec/43_jumps.md). -/

namespace Sys2Proof.Machine

/-- JT a, b (R110): taken exactly when the value of a is strictly positive. -/
def execJumpIfTrue (a b : Source) (s : State) : Host.Outcome State Fault Refusal :=
  .next (jump isPositive a b s)

/-- JF a, b (R111): taken exactly when the value of a is 0. -/
def execJumpIfFalse (a b : Source) (s : State) : Host.Outcome State Fault Refusal :=
  .next (jump isZero a b s)

end Sys2Proof.Machine
end

