-- ==== Sys2Proof/Machine/Dispatch.lean ====
section
/-! DEFINITION. One arm per instruction (spec/40_step.md R77). -/

namespace Sys2Proof.Machine

/-- The effect of a decoded instruction whose parameter words have been fetched (R76, R77). -/
def exec (i : Instr) (s : State) : Host.Outcome State Fault Refusal :=
  match i with
  | .add a b _ dst => Sys2Proof.Machine.execAdd a b dst s
  | .mul a b _ dst => Sys2Proof.Machine.execMul a b dst s
  | .input _ _ _ dst => Sys2Proof.Machine.execInput dst s
  | .output a _ _ => Sys2Proof.Machine.execOutput a s
  | .jumpIfTrue a b _ => Sys2Proof.Machine.execJumpIfTrue a b s
  | .jumpIfFalse a b _ => Sys2Proof.Machine.execJumpIfFalse a b s
  | .lessThan a b _ dst => Sys2Proof.Machine.execLessThan a b dst s
  | .equals a b _ dst => Sys2Proof.Machine.execEquals a b dst s
  | .halt _ _ _ => Sys2Proof.Machine.execHalt s

end Sys2Proof.Machine
end

