-- ==== Sys2Proof/WellFormed.lean ====
section
/-! DEFINITION. Well-formedness of the four fields of an instruction word (spec/30_encoding.md R51, R53, R55, R60), and
of an instruction through the fields it stands for. -/

namespace Sys2Proof

/-- The four decimal fields of an instruction word, as numbers: `(opcode, mode_a, mode_b, mode_dst)` (R51). -/
structure Fields where
  opcode : Nat
  ma : Nat
  mb : Nat
  md : Nat
deriving DecidableEq, Repr

/-- The recognised opcodes, complete (R54). -/
def knownOpcodes : List Nat := [1, 2, 3, 4, 5, 6, 7, 8, 99]

/-- A field quadruple stands for a valid instruction word: the opcode is recognised (R55) and each of the three mode
digits is 0 or 1, whatever the opcode (R53). -/
def Fields.wellFormed (f : Fields) : Bool :=
  knownOpcodes.contains f.opcode && decide (f.ma ≤ 1) && decide (f.mb ≤ 1) && decide (f.md ≤ 1)

/-- The decimal digit of a mode (R53). -/
def Mode.digit : Mode → Nat
  | .position => 0
  | .immediate => 1

/-- The fields of the instruction word an instruction stands for (R51, R54, R57). -/
def Instr.fields : Instr → Fields
  | .add a b md _ => ⟨1, a.mode.digit, b.mode.digit, md.digit⟩
  | .mul a b md _ => ⟨2, a.mode.digit, b.mode.digit, md.digit⟩
  | .input ma mb md _ => ⟨3, ma.digit, mb.digit, md.digit⟩
  | .output a mb md => ⟨4, a.mode.digit, mb.digit, md.digit⟩
  | .jumpIfTrue a b md => ⟨5, a.mode.digit, b.mode.digit, md.digit⟩
  | .jumpIfFalse a b md => ⟨6, a.mode.digit, b.mode.digit, md.digit⟩
  | .lessThan a b md _ => ⟨7, a.mode.digit, b.mode.digit, md.digit⟩
  | .equals a b md _ => ⟨8, a.mode.digit, b.mode.digit, md.digit⟩
  | .halt ma mb md => ⟨99, ma.digit, mb.digit, md.digit⟩

/-- An instruction is well-formed when its fields are.  The types of `Instr` leave nothing else to check: a parameter is
any word (R59), so every term of `Instr` is well-formed (`Sys2Proof.Laws.Encoding` proves it per constructor). -/
def Instr.wellFormed (i : Instr) : Bool := i.fields.wellFormed

end Sys2Proof
end

