-- ==== Sys2Proof/Decode.lean ====
section
/-! DEFINITION. The decoder, total on any list of cells (spec/30_encoding.md R50 to R64), and after it the encoder,
written from the same encoding rules.  Fields are decimal digits, not bits (R51). -/

namespace Sys2Proof

/-- The nine recognised opcodes (R54). -/
inductive Opcode where
  | add | mul | input | output | jumpIfTrue | jumpIfFalse | lessThan | equals | halt
deriving DecidableEq, Repr

/-- Opcode lookup: the value of the two rightmost digits (R54); `none` for 0 and 9 to 98 (R55). -/
def Opcode.ofNat? : Nat → Option Opcode
  | 1 => some .add
  | 2 => some .mul
  | 3 => some .input
  | 4 => some .output
  | 5 => some .jumpIfTrue
  | 6 => some .jumpIfFalse
  | 7 => some .lessThan
  | 8 => some .equals
  | 99 => some .halt
  | _ => none

/-- How many parameter words follow the instruction word (R54, R74). -/
def Opcode.arity : Opcode → Nat
  | .add | .mul | .lessThan | .equals => 3
  | .jumpIfTrue | .jumpIfFalse => 2
  | .input | .output => 1
  | .halt => 0

/-- A mode digit: 0 or 1, and no other (R53). -/
def Mode.ofDigit? : Nat → Option Mode
  | 0 => some .position
  | 1 => some .immediate
  | _ => none

/-- `digit_k(w)`: the decimal digit of `n` at position `k`, counted from the right starting at 0 (spec/00_scope.md
section 4). -/
def digitAt (k n : Nat) : Nat := n / 10 ^ k % 10

/-- The three things an instruction word can be (R64). -/
inductive WordClass where
  /-- Out of `0..99999`, or a mode digit that is not 0 or 1 (R52, R53). -/
  | decodeFault
  /-- Passed the decoder, opcode not recognised (R55). -/
  | unknownOpcode
  /-- One of the 72 valid instruction words (R60). -/
  | valid (op : Opcode) (ma mb md : Mode)
deriving DecidableEq, Repr

/-- `Classify(w)` of R64: the range check (R52), then the mode check of all three digits (R53), then the opcode lookup
(R55); the decoder runs before the lookup (R56). -/
def classify (w : Word) : WordClass :=
  if w.toInt < 0 ∨ 99999 < w.toInt then .decodeFault
  else
    match Mode.ofDigit? (digitAt 2 w.toInt.toNat), Mode.ofDigit? (digitAt 3 w.toInt.toNat),
        Mode.ofDigit? (digitAt 4 w.toInt.toNat) with
    | some ma, some mb, some md =>
      match Opcode.ofNat? (w.toInt.toNat % 100) with
      | some op => .valid op ma mb md
      | none => .unknownOpcode
    | _, _, _ => .decodeFault

/-- What the decoder reads from the cells that start at an instruction word. -/
inductive Decoded where
  /-- A whole instruction, and the cells after it. -/
  | instr (i : Instr) (rest : List Word)
  /-- `DecodeFault(w)` (R52, R53). -/
  | decodeFault (w : Word)
  /-- `UnknownOpcode(w)` (R55). -/
  | unknownOpcode (w : Word)
  /-- The cells end before parameter `i`, counted from 1, the first one missing (R59, R75); `i = 0` when there is not even
  an instruction word. -/
  | missing (i : Nat)
deriving DecidableEq, Repr

/-- Format `F1`: one parameter word (R50). -/
def takeParams1 (ps : List Word) (k : Word → Instr) : Decoded :=
  match ps with
  | p1 :: rest => .instr (k p1) rest
  | [] => .missing 1

/-- Format `F2`: two parameter words (R50). -/
def takeParams2 (ps : List Word) (k : Word → Word → Instr) : Decoded :=
  match ps with
  | p1 :: p2 :: rest => .instr (k p1 p2) rest
  | [_] => .missing 2
  | [] => .missing 1

/-- Format `F3`: three parameter words, the destination last (R50). -/
def takeParams3 (ps : List Word) (k : Word → Word → Word → Instr) : Decoded :=
  match ps with
  | p1 :: p2 :: p3 :: rest => .instr (k p1 p2 p3) rest
  | [_, _] => .missing 3
  | [_] => .missing 2
  | [] => .missing 1

/-- Put the parameter words behind a valid instruction word together with its opcode and mode digits: `ma` governs
parameter 1, `mb` parameter 2, `md` parameter 3 (R57). -/
def assemble (op : Opcode) (ma mb md : Mode) (ps : List Word) : Decoded :=
  match op with
  | .add => takeParams3 ps fun p1 p2 p3 => .add ⟨ma, p1⟩ ⟨mb, p2⟩ md p3
  | .mul => takeParams3 ps fun p1 p2 p3 => .mul ⟨ma, p1⟩ ⟨mb, p2⟩ md p3
  | .input => takeParams1 ps fun p1 => .input ma mb md p1
  | .output => takeParams1 ps fun p1 => .output ⟨ma, p1⟩ mb md
  | .jumpIfTrue => takeParams2 ps fun p1 p2 => .jumpIfTrue ⟨ma, p1⟩ ⟨mb, p2⟩ md
  | .jumpIfFalse => takeParams2 ps fun p1 p2 => .jumpIfFalse ⟨ma, p1⟩ ⟨mb, p2⟩ md
  | .lessThan => takeParams3 ps fun p1 p2 p3 => .lessThan ⟨ma, p1⟩ ⟨mb, p2⟩ md p3
  | .equals => takeParams3 ps fun p1 p2 p3 => .equals ⟨ma, p1⟩ ⟨mb, p2⟩ md p3
  | .halt => .instr (.halt ma mb md) ps

/-- The decoder: the first cell is the instruction word, the next ones its parameters (R50, R51, R64).  The order of the
checks is the step's: DecodeFault, UnknownOpcode, missing parameter cell (R73, R74, R75). -/
def decode : List Word → Decoded
  | [] => .missing 0
  | w :: ps =>
    match classify w with
    | .decodeFault => .decodeFault w
    | .unknownOpcode => .unknownOpcode w
    | .valid op ma mb md => assemble op ma mb md ps

/-- The number of an opcode (R54). -/
def Opcode.number : Opcode → Nat
  | .add => 1
  | .mul => 2
  | .input => 3
  | .output => 4
  | .jumpIfTrue => 5
  | .jumpIfFalse => 6
  | .lessThan => 7
  | .equals => 8
  | .halt => 99

/-- The instruction word `10000*md + 1000*mb + 100*ma + opcode` (R51). -/
def encodeWord (op : Opcode) (ma mb md : Mode) : Word :=
  BitVec.ofNat 64 (10000 * md.digit + 1000 * mb.digit + 100 * ma.digit + op.number)

/-- The cells of an instruction: its word and its parameter words in order (R50, R51, R57). -/
def encode : Instr → List Word
  | .add a b md dst => [encodeWord .add a.mode b.mode md, a.param, b.param, dst]
  | .mul a b md dst => [encodeWord .mul a.mode b.mode md, a.param, b.param, dst]
  | .input ma mb md dst => [encodeWord .input ma mb md, dst]
  | .output a mb md => [encodeWord .output a.mode mb md, a.param]
  | .jumpIfTrue a b md => [encodeWord .jumpIfTrue a.mode b.mode md, a.param, b.param]
  | .jumpIfFalse a b md => [encodeWord .jumpIfFalse a.mode b.mode md, a.param, b.param]
  | .lessThan a b md dst => [encodeWord .lessThan a.mode b.mode md, a.param, b.param, dst]
  | .equals a b md dst => [encodeWord .equals a.mode b.mode md, a.param, b.param, dst]
  | .halt ma mb md => [encodeWord .halt ma mb md]

/-- The opcode of an instruction (R54). -/
def Instr.opcode : Instr → Opcode
  | .add .. => .add
  | .mul .. => .mul
  | .input .. => .input
  | .output .. => .output
  | .jumpIfTrue .. => .jumpIfTrue
  | .jumpIfFalse .. => .jumpIfFalse
  | .lessThan .. => .lessThan
  | .equals .. => .equals
  | .halt .. => .halt

/-- The cells of an instruction whose bits are `w`, bit 0 the least significant bit of the first cell: four cells (the
longest instruction) of 64 bits each, every bit from `nbits` on 0. -/
def tableCells (nbits w : Nat) : List Word :=
  [BitVec.ofNat 64 (w % 2 ^ nbits), BitVec.ofNat 64 (w % 2 ^ nbits / 2 ^ 64),
    BitVec.ofNat 64 (w % 2 ^ nbits / 2 ^ 128), BitVec.ofNat 64 (w % 2 ^ nbits / 2 ^ 192)]

/-- The instruction the decoder reads from the bits `w`, numbered as spec/opcode_table.json numbers them; `none` where the
decoder refuses. -/
def decodeTableWord (nbits w : Nat) : Option Instr :=
  match decode (tableCells nbits w) with
  | .instr i _ => some i
  | .decodeFault _ => none
  | .unknownOpcode _ => none
  | .missing _ => none

end Sys2Proof
end

