-- ==== Sys2Proof/Machine/Sequencer.lean ====
section
/-! DEFINITION. The sequencer's phases before the effect: range check of the pc, fetch, decode, opcode lookup, parameter
fetch (spec/40_step.md R71 to R75). -/

namespace Sys2Proof.Machine

/-- What the phases before the effect find at the pc. -/
inductive Fetched where
  /-- `pc` is outside `[0, N)` (R71). -/
  | offEnd
  /-- A fault of the decoder, the lookup or the parameter fetch (R73, R74, R75). -/
  | trap (t : Trap)
  /-- A whole instruction. -/
  | instr (i : Instr)
deriving DecidableEq, Repr

/-- The cells from an address on, as many as exist below `N` and at most four, the longest instruction (R50, R72, R75). -/
def fetchCells (s : State) (a : Word) : List Word :=
  s.mem.cells (cellIndex a) (min 4 (s.size - cellIndex a))

/-- Range check, fetch, decode, lookup and parameter fetch, in this order.  The address a missing parameter reports is the
index of the first missing parameter cell (R75). -/
def fetch (s : State) : Fetched :=
  if s.InRange s.pc then
    match decode (fetchCells s s.pc) with
    | .instr i _ => .instr i
    | .decodeFault w => .trap (.decodeFault w)
    | .unknownOpcode w => .trap (.unknownOpcode w)
    | .missing i => .trap (.addressFault (s.pc + BitVec.ofNat 64 i))
  else .offEnd

end Sys2Proof.Machine
end

