-- ==== Sys2Proof/Machine/Step.lean ====
section
/-! DEFINITION. One step of the core (spec/40_step.md R70, R79). -/

namespace Sys2Proof.Machine

/-- One step.  RUNNING: the sequencer's phases, then the instruction's effect.  WAIT_INPUT: the pending INPUT's completion or
abort, or more waiting.  In a terminal status all state is frozen (R70, R176): the answer is the same state
(notes/assumptions/6.md). -/
def step (s : State) : Host.Outcome State Fault Refusal :=
  match s.status with
  | .running =>
    match fetch s with
    | .offEnd => .next (fallOffEnd s)
    | .trap t => .next (raise t s)
    | .instr i => exec i s
  | .waitInput => .next (resumeInput s)
  | .halted => .next s
  | .offEnd => .next s
  | .faulted => .next s

/-- Where `withFetchWord` places an instruction: at the pc, or at cell 0 when the pc is no address with room for it. -/
def fetchPlace (s : State) : Nat :=
  if 0 ≤ s.pc.toInt ∧ s.pc.toInt + 7 ≤ wmax then cellIndex s.pc else 0

/-- `s` with the instruction whose bits are `w` where the next step fetches.  A program comes into the core by a launch
only (R170), so this stands for one: the cells of the instruction, a memory long enough to hold them, the pc at the first,
and RUNNING (notes/assumptions/5.md). -/
def State.withFetchWord (s : State) (nbits w : Nat) : State :=
  { s with
    mem := s.mem.writeWords (fetchPlace s) (tableCells nbits w)
    size := max s.size (fetchPlace s + 4)
    pc := BitVec.ofNat 64 (fetchPlace s)
    status := .running }

end Sys2Proof.Machine
end

