-- ==== Sys2Proof/Config.lean ====
section
/-! DEFINITION. What an implementation fixes (spec/00_scope.md R7): the memory capacity, left OPEN by the spec, and
the start pc the host gets when it names none. -/

namespace Sys2Proof

/-- `MEM_CAP`, the greatest program length the memory can hold (R7, D13).  The spec leaves it OPEN and says only
`0 <= MEM_CAP <= WMAX - 3`; the type is that bound (`Fin n` holds the numbers below `n`, and `n = WMAX - 2`).  It has no
body: no proof can see its value (notes/assumptions/2.md). -/
opaque Config.memCap : Fin 9223372036854775805

/-- The start pc of a launch whose host supplies none (R7, R19, R170). -/
def Config.defaultStartPc : Int := 0

end Sys2Proof
end

