-- ==== Sys2Proof/Machine/Ports.lean ====
section
/-! DEFINITION. The host's transactions (spec/10_state.md R19 to R25, spec/70_reset_and_hazards.md R170 to R177): launch,
an answer of the input source to a waiting core, the result port, and the two sequences of a run. -/

namespace Sys2Proof.Machine

/-- `HALTED`, `OFF_END` and `FAULTED` end a run (R13, R175). -/
def Status.terminal : Status → Bool
  | .running | .waitInput => false
  | .halted | .offEnd | .faulted => true

/-- The status codes on the result port (R13). -/
def Status.code : Status → Nat
  | .running => 0
  | .waitInput => 1
  | .halted => 2
  | .offEnd => 3
  | .faulted => 4

/-- The cause codes (R146). -/
def FaultKind.code : FaultKind → Nat
  | .none => 0
  | .decodeFault => 1
  | .unknownOpcode => 2
  | .addressFault => 3
  | .overflowFault => 4
  | .inputAbort => 5

/-- The state right after `Launch(program, start_pc)`, for a program and a start pc that are words: a private copy of the
program, no request outstanding, empty sequences (R23, R170, R173).  The input source is a parameter of the run (R6). -/
def State.launched (program : List Word) (startPc : Word) (source : List (InputEvent Word)) : State where
  mem := Memory.ofWords 0 program
  size := program.length
  pc := startPc
  status := .running
  faultKind := .none
  faultPc := 0#64
  faultInfo := 0#64
  input := source
  trace := []

/-- The launch port of a core whose memory holds `cap` words (R19, R170, R172, R177): the host supplies integers and may leave
out the start pc.  A run must have ended (R182).  A refused launch leaves the state as it was. -/
def launchWithin (cap : Nat) (program : List Int) (startPc : Option Int) (source : List (InputEvent Word)) (s : State) :
    Host.Outcome State Fault Refusal :=
  if s.status.terminal = false then .refused .launchDuringRun
  else if cap < program.length then .refused .launchTooLong
  else if program.all isWord && isWord (startPc.getD Config.defaultStartPc) then
    .next (State.launched (program.map (BitVec.ofInt 64)) (BitVec.ofInt 64 (startPc.getD Config.defaultStartPc)) source)
  else .refused .launchNotWords

/-- The launch port of this core, whose capacity is the open parameter `MEM_CAP` (R7, D13). -/
def launch (program : List Int) (startPc : Option Int) (source : List (InputEvent Word)) (s : State) :
    Host.Outcome State Fault Refusal :=
  launchWithin Config.memCap.val program startPc source s

/-- An entry of the oracle is an answer. -/
def InputEvent.isAnswer {α : Type} : InputEvent α → Bool
  | .wait => false
  | .answer _ => true

/-- The input source answers a waiting core (R20): only when a request is outstanding, and one answer per request (R182). -/
def deliver (a : Answer Word) (s : State) : Host.Outcome State Fault Refusal :=
  if s.status = .waitInput ∧ s.input.any InputEvent.isAnswer = false then
    .next { s with input := s.input ++ [.answer a] }
  else .refused .answerWithoutRequest

/-- The word a port transaction emits. -/
def PortEvent.emitted? {α : Type} : PortEvent α → Option α
  | .request => none
  | .answer _ => none
  | .emit v => some v

/-- The answer a port transaction carries. -/
def PortEvent.answered? {α : Type} : PortEvent α → Option (Answer α)
  | .request => none
  | .answer a => some a
  | .emit _ => none

/-- The output sequence: the words emitted, in order (R21, R25). -/
def State.outputSequence (s : State) : List Word := s.trace.filterMap PortEvent.emitted?

/-- The input sequence: the answers given, in order (R25). -/
def State.inputSequence (s : State) : List (Answer Word) := s.trace.filterMap PortEvent.answered?

/-- How many requests the core has issued in this run (R20). -/
def State.requests (s : State) : Nat := s.trace.count .request

/-- What the result port shows (R22, R81), status and fault kind by their codes. -/
structure RunResult where
  mem : List Word
  status : Nat
  pc : Word
  faultKind : Nat
  faultPc : Word
  faultInfo : Word
  output : List Word
deriving DecidableEq, Repr

/-- The result port: readable once the status is terminal (R22). -/
def readResult (s : State) : Option RunResult :=
  if s.status.terminal then
    some
      { mem := s.mem.cells 0 s.size
        status := s.status.code
        pc := s.pc
        faultKind := s.faultKind.code
        faultPc := s.faultPc
        faultInfo := s.faultInfo
        output := s.outputSequence }
  else none

end Sys2Proof.Machine
end

