-- ==== Sys2Proof/Machine/Reference.lean ====
section
/-! DEFINITION. The step of spec/40_step.md R79 written down a second time, line by line, on mathematical integers and a dense
memory, with the word width `XLEN` as its parameter (spec/00_scope.md R4, R7): `some 64` is this hardware, `none` is
`XLEN = unbounded`, the source's reference behaviour.  `State.toRef` views a machine state as one of its states.  Nothing of
`step` is used here. -/

namespace Sys2Proof.Machine

/-- The state of R10 over the integers; `N` is the length of `mem`. -/
structure RefState where
  mem : List Int
  pc : Int
  status : Status
  faultKind : FaultKind
  faultPc : Int
  faultInfo : Int
  input : List (InputEvent Int)
  trace : List (PortEvent Int)
deriving DecidableEq, Repr

/-- `WMIN <= r and r <= WMAX` for a width, and always for the unbounded machine (R4). -/
def refFits : Option Nat → Int → Bool
  | none, _ => true
  | some xlen, r => decide (-(2 ^ (xlen - 1)) ≤ r) && decide (r ≤ 2 ^ (xlen - 1) - 1)

/-- `raise F(info)`. -/
def refRaise (f : FaultKind) (info : Int) (s : RefState) : RefState :=
  { s with status := .faulted, faultKind := f, faultPc := s.pc, faultInfo := info }

/-- `mem[a]`. -/
def refCell (s : RefState) (a : Int) : Int := s.mem.getD a.toNat 0

/-- `Resolve(m, p)`, and then the rest of the step. -/
def refResolve (m p : Int) (s : RefState) (rest : Int → RefState) : RefState :=
  if m = 1 then rest p
  else if ¬(0 ≤ p ∧ p < s.mem.length) then refRaise .addressFault p s
  else rest (refCell s p)

/-- `MemWrite(a, 1, v)`, and then `pc <- pc + len`. -/
def refWriteAdvance (a v : Int) (len : Int) (s : RefState) : RefState :=
  if ¬(0 ≤ a ∧ a < s.mem.length) then refRaise .addressFault a s
  else { s with mem := s.mem.set a.toNat v, pc := s.pc + len }

/-- `v <- InputTake(); MemWrite(p1, 1, v); pc <- pc + 2` for a core in `WAIT_INPUT` (R102,
notes/assumptions/12.md), the source being a list (notes/assumptions/8.md); with nothing from it the core waits
(notes/assumptions/6.md). -/
def refAwait (p1 : Int) (s : RefState) : RefState :=
  match s.input with
  | [] => s
  | .wait :: rest => { s with input := rest }
  | .answer (.value v) :: rest =>
    refWriteAdvance p1 v 2 { s with status := .running, input := rest, trace := s.trace ++ [.answer (.value v)] }
  | .answer .abort :: rest =>
    refRaise .inputAbort 0 { s with input := rest, trace := s.trace ++ [.answer .abort] }

/-- `Arity(opcode)` (R74). -/
def refArity (opcode : Int) : Nat :=
  if opcode = 1 ∨ opcode = 2 ∨ opcode = 7 ∨ opcode = 8 then 3
  else if opcode = 5 ∨ opcode = 6 then 2
  else if opcode = 3 ∨ opcode = 4 then 1
  else 0

/-- `case opcode of`: the nine arms. -/
def refEffect (xlen : Option Nat) (opcode ma mb : Int) (s : RefState) : RefState :=
  if opcode = 1 then
    refResolve ma (refCell s (s.pc + 1)) s fun va => refResolve mb (refCell s (s.pc + 2)) s fun vb =>
      if refFits xlen (va + vb) = false then refRaise .overflowFault 1 s
      else refWriteAdvance (refCell s (s.pc + 3)) (va + vb) 4 s
  else if opcode = 2 then
    refResolve ma (refCell s (s.pc + 1)) s fun va => refResolve mb (refCell s (s.pc + 2)) s fun vb =>
      if refFits xlen (va * vb) = false then refRaise .overflowFault 2 s
      else refWriteAdvance (refCell s (s.pc + 3)) (va * vb) 4 s
  else if opcode = 3 then
    refAwait (refCell s (s.pc + 1)) { s with status := .waitInput, trace := s.trace ++ [.request] }
  else if opcode = 4 then
    refResolve ma (refCell s (s.pc + 1)) s fun va => { s with trace := s.trace ++ [.emit va], pc := s.pc + 2 }
  else if opcode = 5 then
    refResolve ma (refCell s (s.pc + 1)) s fun va => refResolve mb (refCell s (s.pc + 2)) s fun vb =>
      if va > 0 then { s with pc := vb } else { s with pc := s.pc + 3 }
  else if opcode = 6 then
    refResolve ma (refCell s (s.pc + 1)) s fun va => refResolve mb (refCell s (s.pc + 2)) s fun vb =>
      if va = 0 then { s with pc := vb } else { s with pc := s.pc + 3 }
  else if opcode = 7 then
    refResolve ma (refCell s (s.pc + 1)) s fun va => refResolve mb (refCell s (s.pc + 2)) s fun vb =>
      refWriteAdvance (refCell s (s.pc + 3)) (if va < vb then 1 else 0) 4 s
  else if opcode = 8 then
    refResolve ma (refCell s (s.pc + 1)) s fun va => refResolve mb (refCell s (s.pc + 2)) s fun vb =>
      refWriteAdvance (refCell s (s.pc + 3)) (if va = vb then 1 else 0) 4 s
  else { s with status := .halted }

/-- `Step()` on the integers: the range check of the pc, fetch, decode, lookup, parameter fetch, effect (R71 to R77). -/
def refRunning (xlen : Option Nat) (s : RefState) : RefState :=
  if ¬(0 ≤ s.pc ∧ s.pc < s.mem.length) then { s with status := .offEnd }
  else if refCell s s.pc < 0 ∨ refCell s s.pc > 99999 then refRaise .decodeFault (refCell s s.pc) s
  else if refCell s s.pc / 100 % 10 > 1 ∨ refCell s s.pc / 1000 % 10 > 1 ∨ refCell s s.pc / 10000 % 10 > 1 then
    refRaise .decodeFault (refCell s s.pc) s
  else if refCell s s.pc % 100 ∉ ([1, 2, 3, 4, 5, 6, 7, 8, 99] : List Int) then
    refRaise .unknownOpcode (refCell s s.pc) s
  else
    match (List.range' 1 (refArity (refCell s s.pc % 100))).find? fun i : Nat => decide (s.pc + i ≥ s.mem.length) with
    | some i => refRaise .addressFault (s.pc + i) s
    | none => refEffect xlen (refCell s s.pc % 100) (refCell s s.pc / 100 % 10) (refCell s s.pc / 1000 % 10) s

/-- The step in every status.  RUNNING is R79's listing.  The other arms are the model's choice, as in `step`: the pending INPUT in
`WAIT_INPUT`, its destination read from `mem[pc+1]` again (R18, notes/assumptions/9.md), and a stutter where R70 has no transition
(notes/assumptions/6.md). -/
def refStep (xlen : Option Nat) (s : RefState) : RefState :=
  match s.status with
  | .running => refRunning xlen s
  | .waitInput => refAwait (refCell s (s.pc + 1)) s
  | .halted => s
  | .offEnd => s
  | .faulted => s

/-! ### A machine state on the integers -/

/-- An answer with its word as an integer. -/
def Answer.toRef : Answer Word → Answer Int
  | .value v => .value v.toInt
  | .abort => .abort

/-- An oracle entry with its word as an integer. -/
def InputEvent.toRef : InputEvent Word → InputEvent Int
  | .wait => .wait
  | .answer a => .answer a.toRef

/-- A port transaction with its word as an integer. -/
def PortEvent.toRef : PortEvent Word → PortEvent Int
  | .request => .request
  | .answer a => .answer a.toRef
  | .emit v => .emit v.toInt

/-- A machine state read as integers, its cells laid out from 0 to `N - 1`. -/
def State.toRef (s : State) : RefState where
  mem := (s.mem.cells 0 s.size).map fun w => w.toInt
  pc := s.pc.toInt
  status := s.status
  faultKind := s.faultKind
  faultPc := s.faultPc.toInt
  faultInfo := s.faultInfo.toInt
  input := s.input.map InputEvent.toRef
  trace := s.trace.map PortEvent.toRef

end Sys2Proof.Machine
end

