-- ==== Sys2Proof/Safety.lean ====
section
/-! DEFINITION. What counts as a safe run and as a well-kept state, and the vocabulary in which claims speak of operands and of
what an instruction leaves unchanged. -/

namespace Sys2Proof.Machine

/-! ### Invariants -/

/-- Memory is in its canonical form and lists no cell at or beyond `N` (R11, R47). -/
def State.CanonicalMemory (s : State) : Prop := s.mem.wf = true ∧ s.mem.below s.size = true

/-- The memory length is within the bound every capacity obeys, `N <= MEM_CAP <= WMAX - 3`, so that `pc + 4` is a word for every
`pc` in range (R7). -/
def State.WithinCapacity (s : State) : Prop := (s.size : Int) ≤ wmax - 3

/-- The fault report reads NONE, 0, 0 unless the status is FAULTED, and then names a fault at the pc (R14, R148). -/
def State.CoherentReport (s : State) : Prop :=
  (s.status ≠ .faulted → s.faultKind = .none ∧ s.faultPc = 0#64 ∧ s.faultInfo = 0#64) ∧
  (s.status = .faulted → s.faultKind ≠ .none ∧ s.faultPc = s.pc)

/-- Every request but the one outstanding in WAIT_INPUT has been answered, so at most one is outstanding (R20). -/
def State.BalancedRequests (s : State) : Prop :=
  s.requests = s.inputSequence.length + (if s.status = .waitInput then 1 else 0)

/-- Where the pc stands in the statuses other than RUNNING: a waiting core at an INPUT (R18), a halted one at a HALT (R130), a
core that fell off the end outside memory (R71), a faulted one inside (R148). -/
def State.PcFitsStatus (s : State) : Prop :=
  (s.status = .waitInput → ∃ ma mb md dst, fetch s = .instr (.input ma mb md dst)) ∧
  (s.status = .halted → ∃ ma mb md, fetch s = .instr (.halt ma mb md)) ∧
  (s.status = .offEnd → ¬ s.InRange s.pc) ∧
  (s.status = .faulted → s.InRange s.pc)

/-- A safe state: no fault has ended the run (R140, R175).  HALTED and OFF_END are not errors (R151). -/
def State.Safe (s : State) : Prop := s.status ≠ .faulted

/-! ### Operands -/

/-- The source parameter `a` has the value `v`: itself under IMMEDIATE, the cell it addresses under POSITION (R35). -/
def SourceValue (s : State) (a : Source) (v : Word) : Prop :=
  (a.mode = .immediate ∧ v = a.param) ∨
  (a.mode = .position ∧ s.InRange a.param ∧ v = s.mem.read (cellIndex a.param))

/-- The source parameter `a` cannot be resolved: a POSITION parameter that is no address (R33, R46). -/
def SourceFaults (s : State) (a : Source) : Prop := a.mode = .position ∧ ¬ s.InRange a.param

/-- The cells from the pc on hold the given words, all of them inside memory. -/
def HoldsAtPc (s : State) (ws : List Word) : Prop :=
  0 ≤ s.pc.toInt ∧
  ∀ k, (h : k < ws.length) → s.pc.toInt + k < s.size ∧ s.mem.read (cellIndex s.pc + k) = ws[k]

/-! ### What a step leaves unchanged -/

/-- Every address but `dst` reads as before, those outside memory too. -/
def CellsKeptBut (dst : Word) (s t : State) : Prop := ∀ x : Word, x ≠ dst → memRead t x = memRead s x

/-- Every address reads as before. -/
def CellsKept (s t : State) : Prop := ∀ x : Word, memRead t x = memRead s x

/-- The memory length, the status and the fault report are as before. -/
def ControlKept (s t : State) : Prop :=
  t.size = s.size ∧ t.status = s.status ∧ t.faultKind = s.faultKind ∧ t.faultPc = s.faultPc ∧ t.faultInfo = s.faultInfo

/-- Nothing was taken from the input source and no port transaction was made. -/
def PortsKept (s t : State) : Prop := t.input = s.input ∧ t.trace = s.trace

/-- The run was aborted with the given report; memory, its length and the pc are as before (R148). -/
def AbortedWith (f : FaultKind) (info : Word) (s t : State) : Prop :=
  t.status = .faulted ∧ t.faultKind = f ∧ t.faultPc = s.pc ∧ t.faultInfo = info ∧
  t.mem = s.mem ∧ t.size = s.size ∧ t.pc = s.pc

end Sys2Proof.Machine
end

