-- ==== Sys2Proof/Certificates/Slice0/Obligations.lean ====
section
/-! DEFINITION. The statements for the provers.  Each docstring names the rule or the section of spec/ it formalises; a clause
that rests on a choice of the model's own names its log entry. -/

open Sys2Proof Sys2Proof.Machine

/-! ### Encoding -/

/-- spec/95_test_vectors.md VD4, SD2, VI3, VD7, VD6, VJ6, VK1, VD8, SD3, VD10, VD15, VD20, VD14: a few words written out there, one
per instruction and one per kind of refusal. -/
def Obligations.WordsOfTheVectorsDecode : Prop :=
  decode [1101#64, 1#64, 2#64, 0#64] = .instr (.add ⟨.immediate, 1#64⟩ ⟨.immediate, 2#64⟩ .position 0#64) [] ∧
  decode [1002#64, 4#64, 3#64, 4#64, 33#64] =
    .instr (.mul ⟨.position, 4#64⟩ ⟨.immediate, 3#64⟩ .position 4#64) [33#64] ∧
  decode [103#64, 3#64] = .instr (.input .immediate .position .position 3#64) [] ∧
  decode [104#64, 7#64] = .instr (.output ⟨.immediate, 7#64⟩ .position .position) [] ∧
  decode [5#64, 4#64, 5#64] = .instr (.jumpIfTrue ⟨.position, 4#64⟩ ⟨.position, 5#64⟩ .position) [] ∧
  decode [1106#64, 0#64, 6#64] = .instr (.jumpIfFalse ⟨.immediate, 0#64⟩ ⟨.immediate, 6#64⟩ .position) [] ∧
  decode [7#64, 5#64, 6#64, 7#64] = .instr (.lessThan ⟨.position, 5#64⟩ ⟨.position, 6#64⟩ .position 7#64) [] ∧
  decode [11108#64, 1#64, 2#64, 3#64] =
    .instr (.equals ⟨.immediate, 1#64⟩ ⟨.immediate, 2#64⟩ .immediate 3#64) [] ∧
  decode [11199#64] = .instr (.halt .immediate .immediate .immediate) [] ∧
  decode [203#64, 3#64] = .decodeFault 203#64 ∧
  decode [277#64] = .decodeFault 277#64 ∧
  decode [-1#64] = .decodeFault (-1#64) ∧
  decode [77#64] = .unknownOpcode 77#64

/-- spec/30_encoding.md sections 1 to 4: decoding the cells of any well-formed instruction, whatever stands after them,
gives the instruction back with every mode digit and every parameter word at every value, and the cells after it. -/
def Obligations.DecodeOfEncodeIsTheInstruction : Prop :=
  ∀ (i : Instr) (rest : List Word), i.wellFormed = true → decode (encode i ++ rest) = .instr i rest

/-- spec/30_encoding.md sections 1 to 5: the other direction.  Cells that decode to an instruction are its encoding, so no
instruction has a second encoding. -/
def Obligations.DecodedCellsAreTheEncoding : Prop :=
  ∀ (cells rest : List Word) (i : Instr), decode cells = .instr i rest → cells = encode i ++ rest ∧ i.wellFormed = true

/-- R51: the instruction word is `10000*md + 1000*mb + 100*ma + opcode`, each field of a decoded instruction is read off
its decimal digits, and the encoder's word has those digits. -/
def Obligations.InstructionWordIsItsFiveDigits : Prop :=
  (∀ (w : Word) (ps rest : List Word) (i : Instr), decode (w :: ps) = .instr i rest →
    w.toInt = 10000 * i.fields.md + 1000 * i.fields.mb + 100 * i.fields.ma + i.fields.opcode ∧
    (i.fields.opcode : Int) = w.toInt % 100 ∧ (i.fields.ma : Int) = w.toInt / 100 % 10 ∧
    (i.fields.mb : Int) = w.toInt / 1000 % 10 ∧ (i.fields.md : Int) = w.toInt / 10000 % 10) ∧
  ∀ i : Instr, ∃ (w : Word) (ps : List Word), encode i = w :: ps ∧
    w.toInt = 10000 * i.fields.md + 1000 * i.fields.mb + 100 * i.fields.ma + i.fields.opcode ∧
    w.toInt % 100 = i.fields.opcode ∧ w.toInt / 100 % 10 = i.fields.ma ∧
    w.toInt / 1000 % 10 = i.fields.mb ∧ w.toInt / 10000 % 10 = i.fields.md

/-- R60: the valid instruction words are exactly the 72 of its table. -/
def Obligations.ValidInstructionWordsAreTheSeventyTwo : Prop :=
  ∀ w : Word, (∃ op ma mb md, classify w = .valid op ma mb md) ↔
    w.toInt ∈ ([1, 101, 1001, 1101, 10001, 10101, 11001, 11101, 2, 102, 1002, 1102, 10002, 10102, 11002, 11102,
      3, 103, 1003, 1103, 10003, 10103, 11003, 11103, 4, 104, 1004, 1104, 10004, 10104, 11004, 11104,
      5, 105, 1005, 1105, 10005, 10105, 11005, 11105, 6, 106, 1006, 1106, 10006, 10106, 11006, 11106,
      7, 107, 1007, 1107, 10007, 10107, 11007, 11107, 8, 108, 1008, 1108, 10008, 10108, 11008, 11108,
      99, 199, 1099, 1199, 10099, 10199, 11099, 11199] : List Int)

/-! ### Sequencer -/

/-- spec/40_step.md sections 2 and 4: a running core whose cells at the pc decode to an instruction runs exactly that
instruction; `step` adds nothing around `exec`. -/
def Obligations.StepRunsTheDecodedInstruction : Prop :=
  ∀ (s : State) (i : Instr) (rest : List Word), s.status = .running → s.InRange s.pc →
    decode (fetchCells s s.pc) = .instr i rest → step s = exec i s

/-- spec/40_step.md section 2: the same, said of memory: wherever the cells from the pc on hold the encoding of an
instruction, the step runs it. -/
def Obligations.StepRunsTheInstructionStoredAtThePc : Prop :=
  ∀ (s : State) (i : Instr), s.status = .running → HoldsAtPc s (encode i) → step s = exec i s

/-- R71: a running core whose pc is outside memory ends its run; the status alone changes. -/
def Obligations.PcOutsideMemoryEndsTheRun : Prop :=
  ∀ s : State, s.status = .running → (s.pc.toInt < 0 ∨ (s.size : Int) ≤ s.pc.toInt) →
    step s = .next { s with status := .offEnd }

/-- R52, R53, R56, R141: a word at the pc that is negative, above 99999, or has a hundreds, thousands or ten-thousands
digit that is not 0 or 1, aborts the run with DecodeFault and the word, whatever its opcode. -/
def Obligations.MalformedWordRaisesDecodeFault : Prop :=
  ∀ (s : State) (w : Word), s.status = .running → memRead s s.pc = .ok w →
    (w.toInt < 0 ∨ 99999 < w.toInt ∨ 1 < w.toInt / 100 % 10 ∨ 1 < w.toInt / 1000 % 10 ∨ 1 < w.toInt / 10000 % 10) →
    ∃ t, step s = .next t ∧ AbortedWith .decodeFault w s t ∧ PortsKept s t

/-- R55, R142: a word at the pc that passes the decoder and whose two rightmost digits are not a recognised opcode
aborts the run with UnknownOpcode and the whole word. -/
def Obligations.UnrecognisedOpcodeRaisesUnknownOpcode : Prop :=
  ∀ (s : State) (w : Word), s.status = .running → memRead s s.pc = .ok w → 0 ≤ w.toInt → w.toInt ≤ 99999 →
    w.toInt / 100 % 10 ≤ 1 → w.toInt / 1000 % 10 ≤ 1 → w.toInt / 10000 % 10 ≤ 1 →
    w.toInt % 100 ∉ ([1, 2, 3, 4, 5, 6, 7, 8, 99] : List Int) →
    ∃ t, step s = .next t ∧ AbortedWith .unknownOpcode w s t ∧ PortsKept s t

/-- R75: a recognised instruction whose parameter `i` is the first one to lie at or beyond `N` aborts the run with
AddressFault and that cell's index, before any effect; when all its parameter cells exist, the step runs an instruction
made of them. -/
def Obligations.MissingParameterCellRaisesAddressFault : Prop :=
  ∀ (s : State) (w : Word) (op : Opcode) (ma mb md : Mode), s.WithinCapacity → s.status = .running →
    memRead s s.pc = .ok w → classify w = .valid op ma mb md →
    (∀ i : Nat, 1 ≤ i → i ≤ op.arity → (s.size : Int) ≤ s.pc.toInt + i → s.pc.toInt + (i - 1) < s.size →
      ∃ (t : State) (a : Word), step s = .next t ∧ a.toInt = s.pc.toInt + i ∧ AbortedWith .addressFault a s t ∧
        PortsKept s t) ∧
    (s.pc.toInt + op.arity < s.size →
      ∃ i : Instr, step s = exec i s ∧ encode i = w :: s.mem.cells (cellIndex s.pc + 1) op.arity)

/-- spec/40_step.md section 1 and spec/70_reset_and_hazards.md section 2: in a terminal status no number of steps changes
anything, and the result port shows the end.  That a step of an ended run answers the same state is the model's choice
(notes/assumptions/6.md). -/
def Obligations.TerminalStateIsFrozen : Prop :=
  ∀ (s : State) (k : Nat), s.status = .halted ∨ s.status = .offEnd ∨ s.status = .faulted →
    Host.Core.run core k s = .next s ∧
    ∃ r, readResult s = some r ∧ r.mem = s.mem.cells 0 s.size ∧ r.pc = s.pc ∧
      r.faultKind = s.faultKind.code ∧ r.faultPc = s.faultPc ∧ r.faultInfo = s.faultInfo

/-- spec/40_step.md section 3 and spec/70_reset_and_hazards.md section 2: from every state whatsoever a step answers a
next state; faults and ends of runs are states, and an ended run answers its own state (notes/assumptions/6.md). -/
def Obligations.EveryStepAnswersANextState : Prop :=
  ∀ s : State, ∃ t, step s = .next t

/-- spec/10_state.md section 3, its last paragraph: from a pc in range the sequential next pc is exact, for every
length an instruction has. -/
def Obligations.SequentialPcNeverWraps : Prop :=
  ∀ (s : State) (i : Instr), s.WithinCapacity → s.InRange s.pc →
    (s.pc + BitVec.ofNat 64 (encode i).length).toInt = s.pc.toInt + (encode i).length

/-! ### Memory -/

/-- R44: a write is read back, leaves every other address as it was, and is what the next fetch finds, as instruction
word or as parameter, from every pc whose next four cells reach it. -/
def Obligations.WriteIsSeenByEveryLaterReadAndFetch : Prop :=
  ∀ (s t : State) (a v : Word), s.mem.wf = true → memWrite s a v = .ok t →
    memRead t a = .ok v ∧ (∀ b : Word, b ≠ a → memRead t b = memRead s b) ∧
    ∀ (p : Word) (k : Nat), t.InRange p → k < 4 → p.toInt + k = a.toInt → (fetchCells t p)[k]? = some v

/-- R47: no step changes the length of memory, a step from a memory that lists no cell beyond it lists none, and a write
beyond `N - 1` is an AddressFault: for ADD, MUL, LT and EQ with resolvable sources and a result that is a word, and for
IN when its value has arrived. -/
def Obligations.MemoryNeverGrows : Prop :=
  (∀ s t : State, step s = .next t → t.size = s.size ∧ (s.mem.below s.size = true → t.mem.below t.size = true)) ∧
  ∀ (s : State) (a b : Source) (va vb dst : Word) (md : Mode), SourceValue s a va → SourceValue s b vb →
    (s.size : Int) ≤ dst.toInt →
    (wmin ≤ va.toInt + vb.toInt → va.toInt + vb.toInt ≤ wmax →
      ∃ t, exec (.add a b md dst) s = .next t ∧ AbortedWith .addressFault dst s t ∧ PortsKept s t) ∧
    (wmin ≤ va.toInt * vb.toInt → va.toInt * vb.toInt ≤ wmax →
      ∃ t, exec (.mul a b md dst) s = .next t ∧ AbortedWith .addressFault dst s t ∧ PortsKept s t) ∧
    (∃ t, exec (.lessThan a b md dst) s = .next t ∧ AbortedWith .addressFault dst s t ∧ PortsKept s t) ∧
    (∃ t, exec (.equals a b md dst) s = .next t ∧ AbortedWith .addressFault dst s t ∧ PortsKept s t) ∧
    ∀ (ma mb : Mode) (v : Word) (rest : List (InputEvent Word)), s.input = .answer (.value v) :: rest →
      ∃ t, exec (.input ma mb md dst) s = .next t ∧ AbortedWith .addressFault dst s t

/-- R46: the valid addresses are exactly `[0, N)`: there every read answers and every write lands; a negative address,
never counted back from the end of memory, and one at or beyond `N`, never reduced modulo `N`, faults, as a POSITION
source and as a destination too. -/
def Obligations.NegativeAndTooLargeAddressesFault : Prop :=
  ∀ (s : State) (x : Word),
    (0 ≤ x.toInt → x.toInt < s.size →
      (∃ v, memRead s x = .ok v) ∧ ∀ v, ∃ t, memWrite s x v = .ok t) ∧
    (x.toInt < 0 ∨ (s.size : Int) ≤ x.toInt →
    memRead s x = .error (.addressFault x) ∧ (∀ v, memWrite s x v = .error (.addressFault x)) ∧
    (∀ (b : Source) (md : Mode) (dst : Word),
      ∃ t, exec (.add ⟨.position, x⟩ b md dst) s = .next t ∧ AbortedWith .addressFault x s t ∧ PortsKept s t) ∧
    (∀ (p q : Word) (md : Mode),
      ∃ t, exec (.lessThan ⟨.immediate, p⟩ ⟨.immediate, q⟩ md x) s = .next t ∧ AbortedWith .addressFault x s t ∧
        PortsKept s t))

/-- spec/20_memory.md section 2, spec/40_step.md section 3: whatever the step is, two addresses that read differently
after it are one address. -/
def Obligations.AStepWritesAtMostOneCell : Prop :=
  ∀ (s t : State) (x y : Word), s.mem.wf = true → step s = .next t → memRead t x ≠ memRead s x →
    memRead t y ≠ memRead s y → x = y

/-! ### Arithmetic and comparisons -/

/-- spec/41_arithmetic.md section 2: with resolvable sources, an exact sum that is a word and an in-range destination,
ADD stores the sum, moves the pc by 4 and leaves everything else as it was. -/
def Obligations.AddStoresTheExactSum : Prop :=
  ∀ (s : State) (a b : Source) (md : Mode) (va vb dst : Word), s.mem.wf = true → SourceValue s a va → SourceValue s b vb →
    wmin ≤ va.toInt + vb.toInt → va.toInt + vb.toInt ≤ wmax → s.InRange dst →
    ∃ (t : State) (r : Word), exec (.add a b md dst) s = .next t ∧ memRead t dst = .ok r ∧
      r.toInt = va.toInt + vb.toInt ∧ t.pc = s.pc + 4#64 ∧ CellsKeptBut dst s t ∧ ControlKept s t ∧ PortsKept s t

/-- spec/41_arithmetic.md section 3: the same for MUL and the exact signed product. -/
def Obligations.MulStoresTheExactProduct : Prop :=
  ∀ (s : State) (a b : Source) (md : Mode) (va vb dst : Word), s.mem.wf = true → SourceValue s a va → SourceValue s b vb →
    wmin ≤ va.toInt * vb.toInt → va.toInt * vb.toInt ≤ wmax → s.InRange dst →
    ∃ (t : State) (r : Word), exec (.mul a b md dst) s = .next t ∧ memRead t dst = .ok r ∧
      r.toInt = va.toInt * vb.toInt ∧ t.pc = s.pc + 4#64 ∧ CellsKeptBut dst s t ∧ ControlKept s t ∧ PortsKept s t

/-- R144, and spec/41_arithmetic.md section 1: when the exact result of ADD or MUL is not a word, the step raises
OverflowFault with the opcode, whatever the destination; nothing is written and the pc stays. -/
def Obligations.ResultOutsideTheWordRangeRaisesOverflowFault : Prop :=
  ∀ (s : State) (a b : Source) (md : Mode) (va vb dst : Word), SourceValue s a va → SourceValue s b vb →
    ((va.toInt + vb.toInt < wmin ∨ wmax < va.toInt + vb.toInt) →
      ∃ t, exec (.add a b md dst) s = .next t ∧ AbortedWith .overflowFault 1#64 s t ∧ PortsKept s t) ∧
    ((va.toInt * vb.toInt < wmin ∨ wmax < va.toInt * vb.toInt) →
      ∃ t, exec (.mul a b md dst) s = .next t ∧ AbortedWith .overflowFault 2#64 s t ∧ PortsKept s t)

/-- R122: LT writes 1 if the first value is below the second as signed integers and else 0; EQ writes 1 if they are
equal and else 0; in a memory cell, and nothing else changes but the pc, which moves by 4. -/
def Obligations.ComparisonsStoreOneOrZero : Prop :=
  ∀ (s : State) (a b : Source) (md : Mode) (va vb dst : Word), s.mem.wf = true → SourceValue s a va → SourceValue s b vb →
    s.InRange dst →
    (∃ t, exec (.lessThan a b md dst) s = .next t ∧
      memRead t dst = .ok (if va.toInt < vb.toInt then 1#64 else 0#64) ∧
      t.pc = s.pc + 4#64 ∧ CellsKeptBut dst s t ∧ ControlKept s t ∧ PortsKept s t) ∧
    (∃ t, exec (.equals a b md dst) s = .next t ∧
      memRead t dst = .ok (if va.toInt = vb.toInt then 1#64 else 0#64) ∧
      t.pc = s.pc + 4#64 ∧ CellsKeptBut dst s t ∧ ControlKept s t ∧ PortsKept s t)

/-! ### Operand resolution -/

/-- R76: every source is resolved before the effect, a first and then b, so an instruction with an unresolvable source
raises AddressFault with its parameter: ADD, MUL, LT, EQ, JT and JF with two sources, OUT with one. -/
def Obligations.UnresolvableSourceRaisesAddressFault : Prop :=
  ∀ (s : State) (a b : Source) (i : Instr) (m m' : Mode) (d : Word),
    (i = .add a b m d ∨ i = .mul a b m d ∨ i = .lessThan a b m d ∨ i = .equals a b m d ∨ i = .jumpIfTrue a b m ∨
      i = .jumpIfFalse a b m →
      (SourceFaults s a → ∃ t, exec i s = .next t ∧ AbortedWith .addressFault a.param s t ∧ PortsKept s t) ∧
      (∀ va, SourceValue s a va → SourceFaults s b →
        ∃ t, exec i s = .next t ∧ AbortedWith .addressFault b.param s t ∧ PortsKept s t)) ∧
    (i = .output a m m' → SourceFaults s a →
      ∃ t, exec i s = .next t ∧ AbortedWith .addressFault a.param s t ∧ PortsKept s t)

/-- R113: a conditional jump that would not be taken still raises AddressFault when its target operand is an out-of-range
POSITION parameter, and still raises AddressFault with `pc + 2` when its second parameter cell is missing. -/
def Obligations.NotTakenJumpStillResolvesItsTarget : Prop :=
  ∀ (s : State) (a : Source) (p2 va : Word) (md : Mode), SourceValue s a va → ¬ s.InRange p2 →
    (va.toInt ≤ 0 →
      ∃ t, exec (.jumpIfTrue a ⟨.position, p2⟩ md) s = .next t ∧ AbortedWith .addressFault p2 s t ∧ PortsKept s t) ∧
    (va.toInt ≠ 0 →
      ∃ t, exec (.jumpIfFalse a ⟨.position, p2⟩ md) s = .next t ∧ AbortedWith .addressFault p2 s t ∧ PortsKept s t) ∧
    (∀ (op : Opcode) (ma mb : Mode), op = .jumpIfTrue ∨ op = .jumpIfFalse → s.status = .running →
      HoldsAtPc s [encodeWord op ma mb md, a.param] → s.pc.toInt + 2 = s.size →
      ∃ t, step s = .next t ∧ AbortedWith .addressFault (s.pc + 2#64) s t ∧ PortsKept s t)

/-! ### Jumps -/

/-- spec/43_jumps.md section 1: JT jumps exactly on a strictly positive value, and else falls through by 3; a negative
value does not jump. Everything but the pc is as before. -/
def Obligations.JumpIfTrueJumpsExactlyOnPositiveValues : Prop :=
  ∀ (s : State) (a b : Source) (md : Mode) (va vb : Word), SourceValue s a va → SourceValue s b vb →
    ∃ t, exec (.jumpIfTrue a b md) s = .next t ∧ (0 < va.toInt → t.pc = vb) ∧ (va.toInt ≤ 0 → t.pc = s.pc + 3#64) ∧
      CellsKept s t ∧ ControlKept s t ∧ PortsKept s t

/-- spec/43_jumps.md section 2: JF jumps exactly on 0, and else falls through by 3. Everything but the pc is as before.
-/
def Obligations.JumpIfFalseJumpsExactlyOnZero : Prop :=
  ∀ (s : State) (a b : Source) (md : Mode) (va vb : Word), SourceValue s a va → SourceValue s b vb →
    ∃ t, exec (.jumpIfFalse a b md) s = .next t ∧ (va.toInt = 0 → t.pc = vb) ∧ (va.toInt ≠ 0 → t.pc = s.pc + 3#64) ∧
      CellsKept s t ∧ ControlKept s t ∧ PortsKept s t

/-- R112: any word is a target. A taken jump completes without fault with the target in the pc; if the target is in
range the next fetch is at its cell, and if not the next step ends the run there with OFF_END. -/
def Obligations.TakenJumpGoesToItsTargetWhateverItIs : Prop :=
  ∀ (s : State) (i : Instr) (a b : Source) (md : Mode) (va vb : Word), s.status = .running →
    SourceValue s a va → SourceValue s b vb →
    (i = .jumpIfTrue a b md ∧ 0 < va.toInt ∨ i = .jumpIfFalse a b md ∧ va.toInt = 0) →
    ∃ t, exec i s = .next t ∧ t.status = .running ∧ t.pc = vb ∧ t.mem = s.mem ∧ t.size = s.size ∧
      (s.InRange vb → (fetchCells t t.pc)[0]? = some (s.mem.read (cellIndex vb))) ∧
      (¬ s.InRange vb → ∃ u, step t = .next u ∧ u.status = .offEnd ∧ u.pc = vb ∧ u.faultKind = s.faultKind ∧
        u.mem = s.mem)

/-! ### Input and output -/

/-- spec/42_io.md section 1: when the source has its value ready and the destination is in range, IN takes exactly that
value, stores it, moves the pc by 2 and runs on; the request and the answer are its two port transactions. -/
def Obligations.InputStoresTheValueTaken : Prop :=
  ∀ (s : State) (ma mb md : Mode) (dst v : Word) (rest : List (InputEvent Word)), s.mem.wf = true → s.InRange dst →
    s.input = .answer (.value v) :: rest →
    ∃ t, exec (.input ma mb md dst) s = .next t ∧ memRead t dst = .ok v ∧ t.pc = s.pc + 2#64 ∧ t.status = .running ∧
      t.input = rest ∧ t.trace = s.trace ++ [.request, .answer (.value v)] ∧ CellsKeptBut dst s t ∧ t.size = s.size ∧
      t.faultKind = s.faultKind ∧ t.faultPc = s.faultPc ∧ t.faultInfo = s.faultInfo

/-- spec/42_io.md section 1: when the source has nothing yet, IN issues its request and waits; memory, pc and fault
report do not change. -/
def Obligations.InputWithoutAnAnswerWaits : Prop :=
  ∀ (s : State) (ma mb md : Mode) (dst : Word), (s.input = [] ∨ ∃ rest, s.input = .wait :: rest) →
    ∃ t, exec (.input ma mb md dst) s = .next t ∧ t.status = .waitInput ∧ t.pc = s.pc ∧ t.mem = s.mem ∧
      t.size = s.size ∧ t.faultKind = s.faultKind ∧ t.faultPc = s.faultPc ∧ t.faultInfo = s.faultInfo ∧
      t.input = s.input.tail ∧ t.trace = s.trace ++ [.request]

/-- spec/42_io.md section 1, spec/10_state.md section 7: a value completes the pending IN, with no second request; its destination
is read from `mem[pc+1]` again, which the spec allows and the model does (notes/assumptions/9.md).  With nothing from its source
the core waits, and nothing the spec gives it changes: that a step there answers the same state, but for a used wait entry, is the
model's choice (notes/assumptions/6.md), as is the list of entries (notes/assumptions/8.md). -/
def Obligations.WaitingCoreCompletesOnlyOnAnAnswer : Prop :=
  ∀ (s : State) (dst : Word), s.mem.wf = true → s.status = .waitInput → memRead s (s.pc + 1#64) = .ok dst →
    (s.input = [] ∨ (∃ rest, s.input = .wait :: rest) → step s = .next { s with input := s.input.tail }) ∧
    (∀ v rest, s.input = .answer (.value v) :: rest → s.InRange dst →
      ∃ t, step s = .next t ∧ memRead t dst = .ok v ∧ CellsKeptBut dst s t ∧ t.pc = s.pc + 2#64 ∧ t.status = .running ∧
        t.size = s.size ∧ t.input = rest ∧ t.trace = s.trace ++ [.answer (.value v)] ∧ t.faultKind = s.faultKind)

/-- R145: an abort by the source raises InputAbort with 0 at the IN, whether the core was waiting or asks just now, and
whatever the destination. -/
def Obligations.AbortOfTheSourceRaisesInputAbort : Prop :=
  ∀ (s : State) (rest : List (InputEvent Word)), s.input = .answer .abort :: rest →
    (∀ (ma mb md : Mode) (dst : Word), ∃ t, exec (.input ma mb md dst) s = .next t ∧
      AbortedWith .inputAbort 0#64 s t ∧ t.input = rest ∧ t.trace = s.trace ++ [.request, .answer .abort]) ∧
    (∀ dst, s.status = .waitInput → memRead s (s.pc + 1#64) = .ok dst → ∃ t, step s = .next t ∧
      AbortedWith .inputAbort 0#64 s t ∧ t.input = rest ∧ t.trace = s.trace ++ [.answer .abort])

/-- spec/42_io.md section 1: when the destination of an IN is out of range the value has already been taken
and is lost, and the step raises AddressFault with the destination. -/
def Obligations.InputWithBadDestinationLosesItsValue : Prop :=
  ∀ (s : State) (ma mb md : Mode) (dst v : Word) (rest : List (InputEvent Word)), ¬ s.InRange dst →
    s.input = .answer (.value v) :: rest →
    ∃ t, exec (.input ma mb md dst) s = .next t ∧ AbortedWith .addressFault dst s t ∧ t.input = rest ∧
      t.trace = s.trace ++ [.request, .answer (.value v)]

/-- spec/42_io.md section 2: OUT emits the value of its source in one transaction, moves the pc by 2 and changes nothing
else; it never waits. -/
def Obligations.OutputEmitsTheValueOfItsSource : Prop :=
  ∀ (s : State) (a : Source) (mb md : Mode) (va : Word), SourceValue s a va →
    ∃ t, exec (.output a mb md) s = .next t ∧ t.trace = s.trace ++ [.emit va] ∧
      t.outputSequence = s.outputSequence ++ [va] ∧ t.pc = s.pc + 2#64 ∧ t.input = s.input ∧ CellsKept s t ∧
      ControlKept s t

/-- spec/10_state.md section 8: values are consumed in the order the INPUTs execute, and the answer given to a waiting
core with nothing else to hear is the one its IN stores; in any other state an answer is refused (the refusal is the
model's own, notes/assumptions/7.md). -/
def Obligations.DeliveredAnswerIsTheOneTaken : Prop :=
  (∀ (s : State) (v dst : Word), s.mem.wf = true → s.status = .waitInput → s.input = [] →
    memRead s (s.pc + 1#64) = .ok dst → s.InRange dst →
    ∃ u t, deliver (.value v) s = .next u ∧ step u = .next t ∧ t.status = .running ∧ memRead t dst = .ok v ∧
      t.inputSequence = s.inputSequence ++ [.value v] ∧ t.requests = s.requests) ∧
  ∀ (s : State) (a : Answer Word), s.status ≠ .waitInput → deliver a s = .refused .answerWithoutRequest

/-- spec/42_io.md section 3: a step never takes back or reorders a transaction; it adds at most one emitted word, or one
request, or one answer, or a request with its answer, and one answer at most is taken from the source. -/
def Obligations.PortTransactionsAreOnlyAppended : Prop :=
  ∀ s t : State, step s = .next t →
    (t.trace = s.trace ∧ (t.input = s.input ∨ s.input = .wait :: t.input)) ∨
    (∃ v, t.trace = s.trace ++ [.emit v] ∧ t.input = s.input) ∨
    (t.trace = s.trace ++ [.request] ∧ t.input = s.input.tail ∧ t.status = .waitInput) ∨
    (∃ a, s.input = .answer a :: t.input ∧
      (t.trace = s.trace ++ [.answer a] ∧ s.status = .waitInput ∨
        t.trace = s.trace ++ [.request, .answer a] ∧ s.status = .running))

/-! ### Halt -/

/-- spec/45_halt.md: HALT sets the status and nothing else; a running core whose pc is at any of the eight HALT words
halts there, in the last cell of memory too. -/
def Obligations.HaltEndsTheRunWhereItStands : Prop :=
  (∀ (s : State) (ma mb md : Mode), ∃ t, exec (.halt ma mb md) s = .next t ∧ t.status = .halted ∧ t.pc = s.pc ∧
    CellsKept s t ∧ t.size = s.size ∧ t.faultKind = s.faultKind ∧ t.faultPc = s.faultPc ∧ t.faultInfo = s.faultInfo ∧
    PortsKept s t) ∧
  ∀ (s : State) (w : Word), s.status = .running → memRead s s.pc = .ok w →
    w.toInt ∈ ([99, 199, 1099, 1199, 10099, 10199, 11099, 11199] : List Int) →
    step s = .next { s with status := .halted }

/-! ### Faults and ends -/

/-- R148: a step that enters FAULTED has set the status and the three report registers, with the pc of the faulting
instruction and a fault kind other than NONE, and nothing else: memory, its length and the pc are as before, and no word
was emitted. -/
def Obligations.FaultsAreEnteredPrecisely : Prop :=
  ∀ s t : State, step s = .next t → s.status ≠ .faulted → t.status = .faulted →
    t.faultKind ≠ .none ∧ AbortedWith t.faultKind t.faultInfo s t ∧ t.outputSequence = s.outputSequence

/-- R175: HALTED is entered only at a HALT, OFF_END only with the pc outside memory, FAULTED only with a report at the
pc; from RUNNING, or for FAULTED from WAIT_INPUT too. -/
def Obligations.EndsAreReachedOnlyAsTheSpecSays : Prop :=
  ∀ s t : State, step s = .next t → s.status = .running ∨ s.status = .waitInput →
    (t.status = .halted → s.status = .running ∧ ∃ ma mb md, fetch s = .instr (.halt ma mb md)) ∧
    (t.status = .offEnd → s.status = .running ∧ ¬ s.InRange s.pc) ∧
    (t.status = .faulted → t.faultKind ≠ .none ∧ t.faultPc = s.pc) ∧
    (t.status = .waitInput → s.status = .running → ∃ ma mb md dst, fetch s = .instr (.input ma mb md dst))

/-! ### Invariants -/

/-- The reset state meets every invariant below (spec/10_state.md section 10). Its memory is empty because it is the
state after the launch of the empty program (notes/assumptions/4.md). -/
def Obligations.ResetMeetsTheInvariants : Prop :=
  State.reset.CanonicalMemory ∧ State.reset.WithinCapacity ∧ State.reset.CoherentReport ∧
  State.reset.BalancedRequests ∧ State.reset.PcFitsStatus ∧ State.reset.status = .running ∧
  State.reset.faultKind = .none

/-- spec/20_memory.md: every step keeps memory in its canonical form, within `N`, and `N` within the capacity. The
canonical form is the model's way to hold the cells (notes/assumptions/3.md). -/
def Obligations.EveryStepKeepsMemoryCanonical : Prop :=
  ∀ s t : State, s.CanonicalMemory → step s = .next t → t.CanonicalMemory ∧ (s.WithinCapacity → t.WithinCapacity)

/-- R14: the fault report reads NONE, 0, 0 in every status but FAULTED, and in FAULTED names a fault at the pc; every step
keeps that, and a report once written never changes again. -/
def Obligations.EveryStepKeepsTheFaultReportCoherent : Prop :=
  ∀ s t : State, s.CoherentReport → step s = .next t → t.CoherentReport ∧
    (s.status = .faulted → t.faultKind = s.faultKind ∧ t.faultPc = s.faultPc ∧ t.faultInfo = s.faultInfo)

/-- spec/10_state.md section 8: at most one request is outstanding, and exactly one in WAIT_INPUT; every step keeps
that, a waiting core's pc being at an INPUT (which `EveryStepKeepsThePcWhereTheStatusSays` states). -/
def Obligations.EveryStepKeepsRequestsBalanced : Prop :=
  ∀ s t : State, s.WithinCapacity → s.PcFitsStatus → s.BalancedRequests → step s = .next t → t.BalancedRequests

/-- spec/10_state.md sections 3, 4 and 7: every step keeps a waiting core's pc at an INPUT, a halted one's at a HALT,
the pc of a run that fell off the end outside memory, and the pc of a faulted one inside. -/
def Obligations.EveryStepKeepsThePcWhereTheStatusSays : Prop :=
  ∀ s t : State, s.PcFitsStatus → step s = .next t → t.PcFitsStatus

/-! ### The step of R79, and the unbounded machine -/

/-- `step` is the spec's `Step`, transcribed a second time on mathematical integers (Sys2Proof/Machine/Reference.lean) with
`XLEN = 64`, in every state within the capacity, in canonical form and with a waiting core's pc at an INPUT.  In RUNNING the
transcription is the listing of R79, with an INPUT whose answer is ready as one step (R102, notes/assumptions/12.md) and the source
as a list (notes/assumptions/8.md).  Its other statuses, which R79 does not give, are the model's choice: a waiting core reads its
destination again (R18, notes/assumptions/9.md), and a waiting core with nothing from its source and an ended run, for which R70 has
no transition, answer the same state but for a used wait entry (notes/assumptions/6.md). -/
def Obligations.StepIsTheStepOfTheSpec : Prop :=
  ∀ s t : State, s.CanonicalMemory → s.WithinCapacity → s.PcFitsStatus → step s = .next t →
    refStep (some 64) s.toRef = t.toRef

/-- spec/00_scope.md section 3 and decision D1 of spec/92_eei_decisions.md: the 64-bit machine differs from the one with unbounded
integers only by faulting with OverflowFault.  What both do in WAIT_INPUT and in an ended run is the model's choice as for
`StepIsTheStepOfTheSpec` (notes/assumptions/6.md, 8.md, 9.md, 12.md). -/
def Obligations.UnboundedMachineDiffersOnlyByOverflow : Prop :=
  ∀ s t : State, s.CanonicalMemory → s.WithinCapacity → s.PcFitsStatus → step s = .next t →
    (s.status ≠ .faulted → t.faultKind = .overflowFault → t.status ≠ .faulted) → refStep none s.toRef = t.toRef

/-! ### The host -/

/-- R170: with any capacity the spec allows, a launch of a program of words that fits, given in a terminal status, loads
a private copy of the program, sets the pc to the start pc (0 when none is given), RUNNING, and an empty fault report,
with no request and nothing emitted; a start pc outside memory ends the run at the first step. -/
def Obligations.LaunchLoadsTheProgram : Prop :=
  ∀ (cap : Nat) (s : State) (program : List Int) (startPc : Option Int) (source : List (InputEvent Word)),
    (cap : Int) ≤ wmax - 3 → s.status.terminal = true → program.length ≤ cap → (∀ x ∈ program, wmin ≤ x ∧ x ≤ wmax) →
    (∀ x, startPc = some x → wmin ≤ x ∧ x ≤ wmax) →
    ∃ t, launchWithin cap program startPc source s = .next t ∧ t.size = program.length ∧
      (∀ (k : Nat) (h : k < program.length), (t.mem.read k).toInt = program[k]) ∧
      (startPc = none → t.pc = 0#64) ∧ (∀ x, startPc = some x → t.pc.toInt = x) ∧ t.status = .running ∧
      t.faultKind = .none ∧ t.faultPc = 0#64 ∧ t.faultInfo = 0#64 ∧ t.requests = 0 ∧ t.outputSequence = [] ∧
      t.input = source ∧ (¬ t.InRange t.pc → step t = .next { t with status := .offEnd })

/-- spec/10_state.md section 10: whatever state a launch is given in and whatever it loads, the state after it meets
every invariant, for every capacity the spec allows. The canonical form is the model's way to hold the cells
(notes/assumptions/3.md). -/
def Obligations.LaunchedStateMeetsTheInvariants : Prop :=
  ∀ (cap : Nat) (s t : State) (program : List Int) (startPc : Option Int) (source : List (InputEvent Word)),
    (cap : Int) ≤ wmax - 3 → launchWithin cap program startPc source s = .next t →
    t.CanonicalMemory ∧ t.WithinCapacity ∧ t.CoherentReport ∧ t.BalancedRequests ∧ t.PcFitsStatus

/-- spec/70_reset_and_hazards.md section 1: a launch of a program longer than the capacity, or with a cell or a start pc
that is not a word, is refused. The refusals' names are the model's own. -/
def Obligations.LaunchOfAnUnfitProgramIsRefused : Prop :=
  ∀ (cap : Nat) (s : State) (program : List Int) (startPc : Option Int) (source : List (InputEvent Word)),
    s.status.terminal = true →
    (cap < program.length → launchWithin cap program startPc source s = .refused .launchTooLong) ∧
    (program.length ≤ cap →
      (∃ x ∈ program, x < wmin ∨ wmax < x) ∨ (∃ x, startPc = some x ∧ (x < wmin ∨ wmax < x)) →
      launchWithin cap program startPc source s = .refused .launchNotWords)

/-- spec/70_reset_and_hazards.md sections 1 and 2: nothing of the previous run survives a launch, whichever terminal
status it is given in, and a launch while a run is in progress is refused (the refusal is the model's own,
notes/assumptions/7.md). -/
def Obligations.LaunchErasesThePreviousRun : Prop :=
  ∀ (cap : Nat) (s : State) (program : List Int) (startPc : Option Int) (source : List (InputEvent Word)),
    (∀ s' t : State, s.status.terminal = true → s'.status.terminal = true →
      launchWithin cap program startPc source s = .next t → launchWithin cap program startPc source s' = .next t) ∧
    (s.status = .running ∨ s.status = .waitInput →
      launchWithin cap program startPc source s = .refused .launchDuringRun)

/-- R22: the result port shows the run once the status is terminal, and not before: the cells in order, the codes of
status and fault, the pc and the report. -/
def Obligations.ResultPortShowsEndedRunsOnly : Prop :=
  ∀ s : State,
    (s.status = .running ∨ s.status = .waitInput → readResult s = none) ∧
    (s.status = .halted ∨ s.status = .offEnd ∨ s.status = .faulted → ∃ r, readResult s = some r ∧
      r.pc = s.pc ∧ r.faultPc = s.faultPc ∧ r.faultInfo = s.faultInfo ∧ r.output = s.outputSequence ∧
      r.status = s.status.code ∧ r.faultKind = s.faultKind.code ∧ r.mem.length = s.size ∧
      ∀ x : Word, s.InRange x → r.mem[cellIndex x]? = some (s.mem.read (cellIndex x)))
end

