-- ==== Sys2Proof/Laws/Decode.lean ====
section
/-! SUPPORT. What the classifier of instruction words answers, and that the encoder's words are the ones it accepts. -/

namespace Sys2Proof

theorem Mode.ofDigit?_eq_some_iff {d : Nat} {m : Mode} : Mode.ofDigit? d = some m ↔ d = m.digit := by
  match d with
  | 0 => cases m <;> simp [Mode.ofDigit?, Mode.digit]
  | 1 => cases m <;> simp [Mode.ofDigit?, Mode.digit]
  | d + 2 => cases m <;> simp [Mode.ofDigit?, Mode.digit]

theorem Mode.ofDigit?_eq_none_iff {d : Nat} : Mode.ofDigit? d = none ↔ 1 < d := by
  match d with
  | 0 => simp [Mode.ofDigit?]
  | 1 => simp [Mode.ofDigit?]
  | d + 2 => simp [Mode.ofDigit?]

theorem Mode.digit_le (m : Mode) : m.digit ≤ 1 := by cases m <;> decide

theorem Opcode.ofNat?_eq_some_iff {n : Nat} {op : Opcode} : Opcode.ofNat? n = some op ↔ n = op.number := by
  constructor
  · intro h
    unfold Opcode.ofNat? at h
    split at h <;> simp_all [Opcode.number]
    all_goals subst h; rfl
  · rintro rfl
    cases op <;> rfl

theorem Opcode.ofNat?_eq_none_iff {n : Nat} : Opcode.ofNat? n = none ↔ n ∉ knownOpcodes := by
  constructor
  · intro h hm
    simp only [knownOpcodes, List.mem_cons, List.not_mem_nil, or_false] at hm
    rcases hm with rfl | rfl | rfl | rfl | rfl | rfl | rfl | rfl | rfl <;> cases h
  · intro hm
    cases h : Opcode.ofNat? n with
    | none => rfl
    | some op =>
      rw [Opcode.ofNat?_eq_some_iff] at h
      subst h
      cases op <;> simp [knownOpcodes, Opcode.number] at hm

/-- A word is valid exactly when it is in range and its digits are those of the fields (R51 to R55, R64). -/
theorem classify_eq_valid_iff {w : Word} {op : Opcode} {ma mb md : Mode} :
    classify w = .valid op ma mb md ↔
      0 ≤ w.toInt ∧ w.toInt ≤ 99999 ∧ digitAt 2 w.toInt.toNat = ma.digit ∧ digitAt 3 w.toInt.toNat = mb.digit ∧
        digitAt 4 w.toInt.toNat = md.digit ∧ w.toInt.toNat % 100 = op.number := by
  simp only [← Mode.ofDigit?_eq_some_iff, ← Opcode.ofNat?_eq_some_iff]
  unfold classify
  split_ifs with h
  · refine ⟨fun e => (nomatch e), fun e => ?_⟩
    omega
  · have h0 : 0 ≤ w.toInt ∧ w.toInt ≤ 99999 := by omega
    split
    · rename_i a b d ha hb hd
      split
      · rename_i o ho
        simp [h0, ha, hb, hd, ho]
        tauto
      · rename_i ho
        simp [ho]
    · rename_i hn
      simp only [reduceCtorEq, false_iff]
      rintro ⟨-, -, ha, hb, hd, -⟩
      exact hn ma mb md ha hb hd

/-- A word is a DecodeFault exactly when it is out of range or one of its mode digits is above 1 (R52, R53, R56). -/
theorem classify_eq_decodeFault_iff {w : Word} :
    classify w = .decodeFault ↔
      w.toInt < 0 ∨ 99999 < w.toInt ∨ 1 < digitAt 2 w.toInt.toNat ∨ 1 < digitAt 3 w.toInt.toNat ∨
        1 < digitAt 4 w.toInt.toNat := by
  simp only [← Mode.ofDigit?_eq_none_iff]
  unfold classify
  split_ifs with h
  · simp only [true_iff]
    tauto
  · split
    · rename_i a b d ha hb hd
      simp only [ha, hb, hd]
      constructor
      · intro e
        split at e <;> cases e
      · simp only [reduceCtorEq, or_false]
        omega
    · rename_i hn
      simp only [true_iff]
      by_contra hc
      simp only [not_or, ← ne_eq, Option.ne_none_iff_exists'] at hc
      obtain ⟨-, -, ⟨a, ha⟩, ⟨b, hb⟩, ⟨d, hd⟩⟩ := hc
      exact hn a b d ha hb hd

/-- A word is an UnknownOpcode exactly when it passes the decoder and its opcode is not in the table (R55). -/
theorem classify_eq_unknownOpcode_iff {w : Word} :
    classify w = .unknownOpcode ↔
      (0 ≤ w.toInt ∧ w.toInt ≤ 99999 ∧ digitAt 2 w.toInt.toNat ≤ 1 ∧ digitAt 3 w.toInt.toNat ≤ 1 ∧
        digitAt 4 w.toInt.toNat ≤ 1) ∧ w.toInt.toNat % 100 ∉ knownOpcodes := by
  rw [← Opcode.ofNat?_eq_none_iff]
  cases hc : classify w with
  | decodeFault =>
    rw [classify_eq_decodeFault_iff] at hc
    simp only [reduceCtorEq, false_iff]
    omega
  | valid op ma mb md =>
    rw [classify_eq_valid_iff, ← Opcode.ofNat?_eq_some_iff] at hc
    simp [hc]
  | unknownOpcode =>
    simp only [true_iff]
    have hd : ¬ classify w = .decodeFault := by rw [hc]; simp
    rw [classify_eq_decodeFault_iff] at hd
    refine ⟨by omega, ?_⟩
    cases ho : Opcode.ofNat? (w.toInt.toNat % 100) with
    | none => rfl
    | some op =>
      exfalso
      have hm : ∀ d, ¬ 1 < d → ∃ m : Mode, d = m.digit := fun d h => by
        match d, h with
        | 0, _ => exact ⟨.position, rfl⟩
        | 1, _ => exact ⟨.immediate, rfl⟩
        | d + 2, h => omega
      obtain ⟨ma, ha⟩ := hm (digitAt 2 w.toInt.toNat) (by omega)
      obtain ⟨mb, hb⟩ := hm (digitAt 3 w.toInt.toNat) (by omega)
      obtain ⟨md, hd'⟩ := hm (digitAt 4 w.toInt.toNat) (by omega)
      have hv : classify w = .valid op ma mb md :=
        classify_eq_valid_iff.2 ⟨by omega, by omega, ha, hb, hd', Opcode.ofNat?_eq_some_iff.1 ho⟩
      rw [hc] at hv
      cases hv

/-- The encoder's word, as the integer of its digits (R51). -/
theorem toInt_encodeWord (op : Opcode) (ma mb md : Mode) :
    (encodeWord op ma mb md).toInt = 10000 * md.digit + 1000 * mb.digit + 100 * ma.digit + op.number := by
  cases op <;> cases ma <;> cases mb <;> cases md <;> decide

/-- The classifier accepts the encoder's word with the same fields. -/
theorem classify_encodeWord (op : Opcode) (ma mb md : Mode) : classify (encodeWord op ma mb md) = .valid op ma mb md := by
  cases op <;> cases ma <;> cases mb <;> cases md <;> decide

end Sys2Proof
end

