-- ==== Sys2Proof/Laws/State.lean ====
section
/-! SUPPORT. One lemma per field per update of the state, so that no proof unfolds a record update. -/

namespace Sys2Proof.Machine

/-! ### raise -/

@[simp] theorem raise_mem (t : Trap) (s : State) : (raise t s).mem = s.mem := rfl
@[simp] theorem raise_size (t : Trap) (s : State) : (raise t s).size = s.size := rfl
@[simp] theorem raise_pc (t : Trap) (s : State) : (raise t s).pc = s.pc := rfl
@[simp] theorem raise_status (t : Trap) (s : State) : (raise t s).status = .faulted := rfl
@[simp] theorem raise_faultKind (t : Trap) (s : State) : (raise t s).faultKind = t.kind := rfl
@[simp] theorem raise_faultPc (t : Trap) (s : State) : (raise t s).faultPc = s.pc := rfl
@[simp] theorem raise_faultInfo (t : Trap) (s : State) : (raise t s).faultInfo = t.info := rfl
@[simp] theorem raise_input (t : Trap) (s : State) : (raise t s).input = s.input := rfl
@[simp] theorem raise_trace (t : Trap) (s : State) : (raise t s).trace = s.trace := rfl

/-! ### setPc -/

@[simp] theorem setPc_mem (w : Word) (s : State) : (setPc w s).mem = s.mem := rfl
@[simp] theorem setPc_size (w : Word) (s : State) : (setPc w s).size = s.size := rfl
@[simp] theorem setPc_pc (w : Word) (s : State) : (setPc w s).pc = w := rfl
@[simp] theorem setPc_status (w : Word) (s : State) : (setPc w s).status = s.status := rfl
@[simp] theorem setPc_faultKind (w : Word) (s : State) : (setPc w s).faultKind = s.faultKind := rfl
@[simp] theorem setPc_faultPc (w : Word) (s : State) : (setPc w s).faultPc = s.faultPc := rfl
@[simp] theorem setPc_faultInfo (w : Word) (s : State) : (setPc w s).faultInfo = s.faultInfo := rfl
@[simp] theorem setPc_input (w : Word) (s : State) : (setPc w s).input = s.input := rfl
@[simp] theorem setPc_trace (w : Word) (s : State) : (setPc w s).trace = s.trace := rfl

/-! ### advance -/

@[simp] theorem advance_mem (n : Nat) (s : State) : (advance n s).mem = s.mem := rfl
@[simp] theorem advance_size (n : Nat) (s : State) : (advance n s).size = s.size := rfl
@[simp] theorem advance_pc (n : Nat) (s : State) : (advance n s).pc = s.pc + BitVec.ofNat 64 n := rfl
@[simp] theorem advance_status (n : Nat) (s : State) : (advance n s).status = s.status := rfl
@[simp] theorem advance_faultKind (n : Nat) (s : State) : (advance n s).faultKind = s.faultKind := rfl
@[simp] theorem advance_faultPc (n : Nat) (s : State) : (advance n s).faultPc = s.faultPc := rfl
@[simp] theorem advance_faultInfo (n : Nat) (s : State) : (advance n s).faultInfo = s.faultInfo := rfl
@[simp] theorem advance_input (n : Nat) (s : State) : (advance n s).input = s.input := rfl
@[simp] theorem advance_trace (n : Nat) (s : State) : (advance n s).trace = s.trace := rfl

/-! ### fallOffEnd -/

@[simp] theorem fallOffEnd_mem (s : State) : (fallOffEnd s).mem = s.mem := rfl
@[simp] theorem fallOffEnd_size (s : State) : (fallOffEnd s).size = s.size := rfl
@[simp] theorem fallOffEnd_pc (s : State) : (fallOffEnd s).pc = s.pc := rfl
@[simp] theorem fallOffEnd_status (s : State) : (fallOffEnd s).status = .offEnd := rfl
@[simp] theorem fallOffEnd_faultKind (s : State) : (fallOffEnd s).faultKind = s.faultKind := rfl
@[simp] theorem fallOffEnd_faultPc (s : State) : (fallOffEnd s).faultPc = s.faultPc := rfl
@[simp] theorem fallOffEnd_faultInfo (s : State) : (fallOffEnd s).faultInfo = s.faultInfo := rfl
@[simp] theorem fallOffEnd_input (s : State) : (fallOffEnd s).input = s.input := rfl
@[simp] theorem fallOffEnd_trace (s : State) : (fallOffEnd s).trace = s.trace := rfl

/-! ### halt -/

@[simp] theorem halt_mem (s : State) : (halt s).mem = s.mem := rfl
@[simp] theorem halt_size (s : State) : (halt s).size = s.size := rfl
@[simp] theorem halt_pc (s : State) : (halt s).pc = s.pc := rfl
@[simp] theorem halt_status (s : State) : (halt s).status = .halted := rfl
@[simp] theorem halt_faultKind (s : State) : (halt s).faultKind = s.faultKind := rfl
@[simp] theorem halt_faultPc (s : State) : (halt s).faultPc = s.faultPc := rfl
@[simp] theorem halt_faultInfo (s : State) : (halt s).faultInfo = s.faultInfo := rfl
@[simp] theorem halt_input (s : State) : (halt s).input = s.input := rfl
@[simp] theorem halt_trace (s : State) : (halt s).trace = s.trace := rfl

/-! ### emit -/

@[simp] theorem emit_mem (v : Word) (s : State) : (emit v s).mem = s.mem := rfl
@[simp] theorem emit_size (v : Word) (s : State) : (emit v s).size = s.size := rfl
@[simp] theorem emit_pc (v : Word) (s : State) : (emit v s).pc = s.pc := rfl
@[simp] theorem emit_status (v : Word) (s : State) : (emit v s).status = s.status := rfl
@[simp] theorem emit_faultKind (v : Word) (s : State) : (emit v s).faultKind = s.faultKind := rfl
@[simp] theorem emit_faultPc (v : Word) (s : State) : (emit v s).faultPc = s.faultPc := rfl
@[simp] theorem emit_faultInfo (v : Word) (s : State) : (emit v s).faultInfo = s.faultInfo := rfl
@[simp] theorem emit_input (v : Word) (s : State) : (emit v s).input = s.input := rfl
@[simp] theorem emit_trace (v : Word) (s : State) : (emit v s).trace = s.trace ++ [.emit v] := rfl

/-! ### requestInput -/

@[simp] theorem requestInput_mem (s : State) : (requestInput s).mem = s.mem := rfl
@[simp] theorem requestInput_size (s : State) : (requestInput s).size = s.size := rfl
@[simp] theorem requestInput_pc (s : State) : (requestInput s).pc = s.pc := rfl
@[simp] theorem requestInput_status (s : State) : (requestInput s).status = .waitInput := rfl
@[simp] theorem requestInput_faultKind (s : State) : (requestInput s).faultKind = s.faultKind := rfl
@[simp] theorem requestInput_faultPc (s : State) : (requestInput s).faultPc = s.faultPc := rfl
@[simp] theorem requestInput_faultInfo (s : State) : (requestInput s).faultInfo = s.faultInfo := rfl
@[simp] theorem requestInput_input (s : State) : (requestInput s).input = s.input := rfl
@[simp] theorem requestInput_trace (s : State) : (requestInput s).trace = s.trace ++ [.request] := rfl

/-! ### takeAnswer -/

@[simp] theorem takeAnswer_mem (a : Answer Word) (r : List (InputEvent Word)) (s : State) : (takeAnswer a r s).mem = s.mem := rfl
@[simp] theorem takeAnswer_size (a : Answer Word) (r : List (InputEvent Word)) (s : State) : (takeAnswer a r s).size = s.size := rfl
@[simp] theorem takeAnswer_pc (a : Answer Word) (r : List (InputEvent Word)) (s : State) : (takeAnswer a r s).pc = s.pc := rfl
@[simp] theorem takeAnswer_status (a : Answer Word) (r : List (InputEvent Word)) (s : State) : (takeAnswer a r s).status = s.status := rfl
@[simp] theorem takeAnswer_faultKind (a : Answer Word) (r : List (InputEvent Word)) (s : State) : (takeAnswer a r s).faultKind = s.faultKind := rfl
@[simp] theorem takeAnswer_faultPc (a : Answer Word) (r : List (InputEvent Word)) (s : State) : (takeAnswer a r s).faultPc = s.faultPc := rfl
@[simp] theorem takeAnswer_faultInfo (a : Answer Word) (r : List (InputEvent Word)) (s : State) : (takeAnswer a r s).faultInfo = s.faultInfo := rfl
@[simp] theorem takeAnswer_input (a : Answer Word) (r : List (InputEvent Word)) (s : State) : (takeAnswer a r s).input = r := rfl
@[simp] theorem takeAnswer_trace (a : Answer Word) (r : List (InputEvent Word)) (s : State) : (takeAnswer a r s).trace = s.trace ++ [.answer a] := rfl

end Sys2Proof.Machine
end

