-- ==== Sys2Proof/Laws/Memory.lean ====
section
/-! SUPPORT. The laws of the cells (spec/20_memory.md R33, R34, R41, R45): a read after a write, and that every memory operation
keeps the canonical form. -/

namespace Sys2Proof.Machine

/-! ### The canonical form from an address on -/

theorem Memory.wfFrom_cons {lo k : Nat} {w : Word} {m : Memory} :
    Memory.wfFrom lo ((k, w) :: m) = true ↔ lo ≤ k ∧ w ≠ 0#64 ∧ Memory.wfFrom (k + 1) m = true := by
  simp [Memory.wfFrom, and_assoc]

theorem Memory.wfFrom_mono {lo lo' : Nat} {m : Memory} (h : lo' ≤ lo) (hm : Memory.wfFrom lo m = true) :
    Memory.wfFrom lo' m = true := by
  cases m with
  | nil => rfl
  | cons c m =>
    obtain ⟨h1, h2, h3⟩ := Memory.wfFrom_cons.1 hm
    exact Memory.wfFrom_cons.2 ⟨by omega, h2, h3⟩

theorem Memory.read_of_lt {lo a : Nat} {m : Memory} (hm : Memory.wfFrom lo m = true) (h : a < lo) :
    m.read a = 0#64 := by
  induction m generalizing lo with
  | nil => rfl
  | cons c m ih =>
    obtain ⟨h1, -, h3⟩ := Memory.wfFrom_cons.1 hm
    rw [Memory.read, if_neg (by omega)]
    exact ih h3 (by omega)

/-! ### Write -/

theorem Memory.write_wfFrom {lo a : Nat} {v : Word} {m : Memory} (hm : Memory.wfFrom lo m = true) (ha : lo ≤ a) :
    Memory.wfFrom lo (m.write a v) = true := by
  induction m generalizing lo with
  | nil =>
    by_cases hv : v = 0#64
    · simp [Memory.write, hv, Memory.wfFrom]
    · simp [Memory.write, hv, Memory.wfFrom, ha]
  | cons c m ih =>
    obtain ⟨k, w⟩ := c
    obtain ⟨h1, h2, h3⟩ := Memory.wfFrom_cons.1 hm
    unfold Memory.write
    split_ifs with hk hka hv hv
    · exact Memory.wfFrom_cons.2 ⟨h1, h2, ih h3 (by omega)⟩
    · exact Memory.wfFrom_mono (by omega) h3
    · exact Memory.wfFrom_cons.2 ⟨ha, hv, by rw [← hka]; exact h3⟩
    · exact hm
    · exact Memory.wfFrom_cons.2 ⟨ha, hv, Memory.wfFrom_cons.2 ⟨by omega, h2, h3⟩⟩

/-- A write keeps the canonical form. -/
theorem Memory.write_wf {a : Nat} {v : Word} {m : Memory} (hm : m.wf = true) : (m.write a v).wf = true :=
  Memory.write_wfFrom hm (Nat.zero_le a)

/-- Reading the address just written gives the word written. -/
theorem Memory.read_write_same_from {lo a : Nat} {v : Word} {m : Memory} (hm : Memory.wfFrom lo m = true) :
    (m.write a v).read a = v := by
  induction m generalizing lo with
  | nil =>
    by_cases hv : v = 0#64
    · simp [Memory.write, hv, Memory.read]
    · simp [Memory.write, hv, Memory.read]
  | cons c m ih =>
    obtain ⟨k, w⟩ := c
    obtain ⟨h1, h2, h3⟩ := Memory.wfFrom_cons.1 hm
    unfold Memory.write
    split_ifs with hk hka hv hv
    · rw [Memory.read, if_neg (by omega)]; exact ih h3
    · rw [hv]; exact Memory.read_of_lt h3 (by omega)
    · rw [Memory.read, if_pos rfl]
    · rw [Memory.read, if_neg hka, hv]; exact Memory.read_of_lt h3 (by omega)
    · rw [Memory.read, if_pos rfl]

theorem Memory.read_write_same {a : Nat} {v : Word} {m : Memory} (hm : m.wf = true) : (m.write a v).read a = v :=
  Memory.read_write_same_from hm

/-- Every other address reads as before. -/
theorem Memory.read_write_other_from {lo a b : Nat} {v : Word} {m : Memory} (hm : Memory.wfFrom lo m = true) (hb : b ≠ a) :
    (m.write a v).read b = m.read b := by
  induction m generalizing lo with
  | nil =>
    by_cases hv : v = 0#64
    · simp [Memory.write, hv]
    · simp [Memory.write, hv, Memory.read, Ne.symm hb]
  | cons c m ih =>
    obtain ⟨k, w⟩ := c
    obtain ⟨h1, h2, h3⟩ := Memory.wfFrom_cons.1 hm
    unfold Memory.write
    split_ifs with hk hka hv hv
    · simp only [Memory.read, ih h3]
    · rw [Memory.read, if_neg (by omega)]
    · simp [Memory.read, Ne.symm hb, hka]
    · rfl
    · conv_lhs => rw [Memory.read, if_neg (Ne.symm hb)]

theorem Memory.read_write_other {a b : Nat} {v : Word} {m : Memory} (hm : m.wf = true) (hb : b ≠ a) :
    (m.write a v).read b = m.read b :=
  Memory.read_write_other_from hm hb

/-- A write below `n` lists nothing at or beyond `n`. -/
theorem Memory.write_below {a n : Nat} {v : Word} {m : Memory} (hm : m.below n = true) (ha : a < n) :
    (m.write a v).below n = true := by
  induction m with
  | nil =>
    by_cases hv : v = 0#64
    · simp [Memory.write, hv, Memory.below]
    · simp [Memory.write, hv, Memory.below, ha]
  | cons c m ih =>
    obtain ⟨k, w⟩ := c
    simp only [Memory.below, List.all_cons, Bool.and_eq_true, decide_eq_true_eq] at hm ih
    unfold Memory.write
    split_ifs with hk hka hv hv <;> simp only [Memory.below, List.all_cons, Bool.and_eq_true, decide_eq_true_eq]
    · exact ⟨hm.1, ih hm.2⟩
    · exact hm.2
    · exact ⟨ha, hm.2⟩
    · exact hm
    · exact ⟨ha, hm⟩

/-! ### Loading -/

theorem Memory.ofWords_wfFrom (a : Nat) (vs : List Word) : Memory.wfFrom a (Memory.ofWords a vs) = true := by
  induction vs generalizing a with
  | nil => rfl
  | cons v vs ih =>
    unfold Memory.ofWords
    split_ifs with hv
    · exact Memory.wfFrom_mono (Nat.le_succ a) (ih (a + 1))
    · exact Memory.wfFrom_cons.2 ⟨Nat.le_refl a, hv, ih (a + 1)⟩

/-- A loaded program is in canonical form. -/
theorem Memory.ofWords_wf (vs : List Word) : (Memory.ofWords 0 vs).wf = true := Memory.ofWords_wfFrom 0 vs

theorem Memory.ofWords_below (a : Nat) (vs : List Word) : (Memory.ofWords a vs).below (a + vs.length) = true := by
  induction vs generalizing a with
  | nil => rfl
  | cons v vs ih =>
    have h := ih (a + 1)
    rw [show a + 1 + vs.length = a + (v :: vs).length by simp; omega] at h
    unfold Memory.ofWords
    split_ifs with hv
    · exact h
    · simp only [Memory.below, List.all_cons, Bool.and_eq_true, decide_eq_true_eq] at h ⊢
      exact ⟨by simp, h⟩

/-- Cell `i` of a loaded program is its word `i`. -/
theorem Memory.read_ofWords (a i : Nat) (vs : List Word) (h : i < vs.length) :
    (Memory.ofWords a vs).read (a + i) = vs[i] := by
  induction vs generalizing a i with
  | nil => simp at h
  | cons v vs ih =>
    unfold Memory.ofWords
    cases i with
    | zero =>
      split_ifs with hv
      · rw [Memory.read_of_lt (Memory.ofWords_wfFrom (a + 1) vs) (by omega), List.getElem_cons_zero, hv]
      · simp [Memory.read]
    | succ i =>
      have h' := ih (a + 1) i (by simpa using h)
      rw [show a + 1 + i = a + (i + 1) by omega] at h'
      split_ifs with hv
      · simpa using h'
      · simpa [Memory.read] using h'

/-- Consecutive writes keep the canonical form. -/
theorem Memory.writeWords_wf {a : Nat} {vs : List Word} {m : Memory} (hm : m.wf = true) : (m.writeWords a vs).wf = true := by
  induction vs generalizing a m with
  | nil => exact hm
  | cons v vs ih => exact ih (Memory.write_wf hm)

/-! ### The access primitives -/

/-- What `MemRead` answers for an address in range. -/
theorem memRead_of_inRange {s : State} {a : Word} (h : s.InRange a) : memRead s a = .ok (s.mem.read (cellIndex a)) :=
  if_pos h

/-- What `MemRead` answers for an address out of range. -/
theorem memRead_of_not_inRange {s : State} {a : Word} (h : ¬ s.InRange a) : memRead s a = .error (.addressFault a) :=
  if_neg h

/-- What `MemWrite` answers for an address in range. -/
theorem memWrite_of_inRange {s : State} {a v : Word} (h : s.InRange a) :
    memWrite s a v = .ok { s with mem := s.mem.write (cellIndex a) v } :=
  if_pos h

/-- What `MemWrite` answers for an address out of range. -/
theorem memWrite_of_not_inRange {s : State} {a v : Word} (h : ¬ s.InRange a) :
    memWrite s a v = .error (.addressFault a) :=
  if_neg h

theorem memRead_ok_iff {s : State} {a v : Word} :
    memRead s a = .ok v ↔ s.InRange a ∧ s.mem.read (cellIndex a) = v := by
  by_cases h : s.InRange a
  · rw [memRead_of_inRange h]
    exact ⟨fun e => ⟨h, Except.ok.inj e⟩, fun e => congrArg _ e.2⟩
  · rw [memRead_of_not_inRange h]
    exact ⟨fun e => (nomatch e), fun e => absurd e.1 h⟩

theorem memRead_error_iff {s : State} {a : Word} {t : Trap} :
    memRead s a = .error t ↔ ¬ s.InRange a ∧ t = .addressFault a := by
  by_cases h : s.InRange a
  · rw [memRead_of_inRange h]
    exact ⟨fun e => (nomatch e), fun e => absurd h e.1⟩
  · rw [memRead_of_not_inRange h]
    exact ⟨fun e => ⟨h, (Except.error.inj e).symm⟩, fun e => congrArg _ e.2.symm⟩

/-- Whether an address is in range depends on the memory length alone. -/
theorem memRead_congr {s t : State} {a : Word} (hs : t.size = s.size)
    (hm : s.InRange a → t.mem.read (cellIndex a) = s.mem.read (cellIndex a)) : memRead t a = memRead s a := by
  by_cases h : s.InRange a
  · have ht : t.InRange a := by rw [State.InRange, hs]; exact h
    rw [memRead_of_inRange h, memRead_of_inRange ht, hm h]
  · have ht : ¬ t.InRange a := by rw [State.InRange, hs]; exact h
    rw [memRead_of_not_inRange h, memRead_of_not_inRange ht]

/-- Two in-range addresses with one cell index are one address (R45). -/
theorem cellIndex_inj {s : State} {a b : Word} (ha : s.InRange a) (hb : s.InRange b) (h : cellIndex a = cellIndex b) :
    a = b := by
  unfold cellIndex at h
  have h1 := ha.1
  have h2 := hb.1
  exact BitVec.eq_of_toInt_eq (by omega)

/-- After a write, the address written reads as the word written. -/
theorem memRead_write_same {s : State} {a v : Word} (hm : s.mem.wf = true) (ha : s.InRange a) :
    memRead { s with mem := s.mem.write (cellIndex a) v } a = .ok v :=
  memRead_ok_iff.2 ⟨ha, Memory.read_write_same hm⟩

/-- After a write, every other address reads as before. -/
theorem memRead_write_other {s : State} {a b v : Word} (hm : s.mem.wf = true) (ha : s.InRange a) (hb : b ≠ a) :
    memRead { s with mem := s.mem.write (cellIndex a) v } b = memRead s b :=
  memRead_congr rfl fun hbr => Memory.read_write_other hm fun e => hb (cellIndex_inj hbr ha e)

/-- The cell index of an in-range address lies below `N`. -/
theorem cellIndex_lt {s : State} {a : Word} (ha : s.InRange a) : cellIndex a < s.size := by
  unfold cellIndex
  have h1 := ha.1
  have h2 := ha.2
  omega

end Sys2Proof.Machine
end

