-- ==== Sys2Proof/Laws/Ops.lean ====
section
/-! SUPPORT. For each shared operation, one lemma that says everything it can do. -/

namespace Sys2Proof.Machine

/-! ### Sources -/

theorem resolve_ok_iff {s : State} {a : Source} {v : Word} : resolve s a = .ok v ↔ SourceValue s a v := by
  obtain ⟨m, p⟩ := a
  cases m with
  | position =>
    rw [show resolve s ⟨.position, p⟩ = memRead s p from rfl, memRead_ok_iff]
    simp [SourceValue, eq_comm]
  | immediate => simp [resolve, SourceValue, eq_comm]

theorem resolve_error_iff {s : State} {a : Source} {t : Trap} :
    resolve s a = .error t ↔ SourceFaults s a ∧ t = .addressFault a.param := by
  obtain ⟨m, p⟩ := a
  cases m with
  | position => simp [resolve, SourceFaults, memRead_error_iff]
  | immediate => simp [resolve, SourceFaults]

/-- A source either has a value or faults. -/
theorem source_cases (s : State) (a : Source) : (∃ v, SourceValue s a v) ∨ SourceFaults s a := by
  cases h : resolve s a with
  | ok v => exact .inl ⟨v, resolve_ok_iff.1 h⟩
  | error t => exact .inr (resolve_error_iff.1 h).1

theorem withSource_of_value {s : State} {a : Source} {va : Word} (ha : SourceValue s a va) (k : Word → State) :
    withSource a s k = k va := by
  rw [withSource, resolve_ok_iff.2 ha]

theorem withSource_of_fault {s : State} {a : Source} (ha : SourceFaults s a) (k : Word → State) :
    withSource a s k = raise (.addressFault a.param) s := by
  rw [withSource, resolve_error_iff.2 ⟨ha, rfl⟩]

theorem withSources_of_values {s : State} {a b : Source} {va vb : Word} (ha : SourceValue s a va)
    (hb : SourceValue s b vb) (k : Word → Word → State) : withSources a b s k = k va vb := by
  simp only [withSources, resolve_ok_iff.2 ha, resolve_ok_iff.2 hb]

theorem withSources_of_fault_left {s : State} {a b : Source} (ha : SourceFaults s a) (k : Word → Word → State) :
    withSources a b s k = raise (.addressFault a.param) s := by
  simp only [withSources, resolve_error_iff.2 ⟨ha, rfl⟩]

theorem withSources_of_fault_right {s : State} {a b : Source} {va : Word} (ha : SourceValue s a va)
    (hb : SourceFaults s b) (k : Word → Word → State) : withSources a b s k = raise (.addressFault b.param) s := by
  simp only [withSources, resolve_ok_iff.2 ha, resolve_error_iff.2 ⟨hb, rfl⟩]

/-- The two sources resolve, or the first or the second one faults. -/
theorem withSources_cases (a b : Source) (s : State) (k : Word → Word → State) :
    (∃ va vb, SourceValue s a va ∧ SourceValue s b vb ∧ withSources a b s k = k va vb) ∨
    (SourceFaults s a ∧ withSources a b s k = raise (.addressFault a.param) s) ∨
    (∃ va, SourceValue s a va ∧ SourceFaults s b ∧ withSources a b s k = raise (.addressFault b.param) s) := by
  obtain ⟨va, ha⟩ | ha := source_cases s a
  · obtain ⟨vb, hb⟩ | hb := source_cases s b
    · exact .inl ⟨va, vb, ha, hb, withSources_of_values ha hb k⟩
    · exact .inr (.inr ⟨va, ha, hb, withSources_of_fault_right ha hb k⟩)
  · exact .inr (.inl ⟨ha, withSources_of_fault_left ha k⟩)

/-! ### The single write and the pc's advance -/

theorem storeResult_of_inRange {s : State} {dst : Word} (h : s.InRange dst) (r : Word) (len : Nat) :
    storeResult dst r len s = advance len { s with mem := s.mem.write (cellIndex dst) r } := by
  simp only [storeResult, memWrite_of_inRange h]

theorem storeResult_of_not_inRange {s : State} {dst : Word} (h : ¬ s.InRange dst) (r : Word) (len : Nat) :
    storeResult dst r len s = raise (.addressFault dst) s := by
  simp only [storeResult, memWrite_of_not_inRange h]

theorem binary_of_values {s : State} {a b : Source} {va vb r dst : Word} {f : Word → Word → Except Trap Word}
    (ha : SourceValue s a va) (hb : SourceValue s b vb) (hf : f va vb = .ok r) :
    binary f a b dst s = storeResult dst r 4 s := by
  rw [binary, withSources_of_values ha hb, hf]

theorem binary_of_trap {s : State} {a b : Source} {va vb dst : Word} {t : Trap} {f : Word → Word → Except Trap Word}
    (ha : SourceValue s a va) (hb : SourceValue s b vb) (hf : f va vb = .error t) :
    binary f a b dst s = raise t s := by
  rw [binary, withSources_of_values ha hb, hf]

/-- A three-parameter instruction writes one in-range cell and moves on by 4, or raises a fault. -/
theorem binary_cases (f : Word → Word → Except Trap Word) (a b : Source) (dst : Word) (s : State) :
    (∃ r, s.InRange dst ∧
      binary f a b dst s = advance 4 { s with mem := s.mem.write (cellIndex dst) r }) ∨
    (∃ t, binary f a b dst s = raise t s) := by
  obtain ⟨va, vb, ha, hb, -⟩ | ⟨-, h⟩ | ⟨va, -, -, h⟩ := withSources_cases a b s
      (fun va vb => match f va vb with | .error t => raise t s | .ok r => storeResult dst r 4 s)
  · cases hf : f va vb with
    | error t => exact .inr ⟨t, binary_of_trap ha hb hf⟩
    | ok r =>
      by_cases hd : s.InRange dst
      · exact .inl ⟨r, hd, by rw [binary_of_values ha hb hf, storeResult_of_inRange hd]⟩
      · exact .inr ⟨_, by rw [binary_of_values ha hb hf, storeResult_of_not_inRange hd]⟩
  · exact .inr ⟨_, h⟩
  · exact .inr ⟨_, h⟩

/-- A jump sets the pc alone, or raises a fault. -/
theorem jump_cases (c : Word → Bool) (a b : Source) (s : State) :
    (∃ w, jump c a b s = setPc w s) ∨ (∃ t, jump c a b s = raise t s) := by
  obtain ⟨va, vb, -, -, h⟩ | ⟨-, h⟩ | ⟨va, -, -, h⟩ := withSources_cases a b s
      (fun va vb => if c va then setPc vb s else advance 3 s)
  · rw [← jump] at h
    by_cases hc : c va
    · exact .inl ⟨vb, by rw [h, if_pos hc]⟩
    · exact .inl ⟨_, by rw [h, if_neg hc, advance]⟩
  · exact .inr ⟨_, h⟩
  · exact .inr ⟨_, h⟩

/-! ### Results -/

theorem isWord_iff {r : Int} : isWord r = true ↔ wmin ≤ r ∧ r ≤ wmax := by
  simp [isWord]

/-- A word read as an integer lies between WMIN and WMAX. -/
theorem toInt_bounds (w : Word) : wmin ≤ w.toInt ∧ w.toInt ≤ wmax := by
  have h1 := BitVec.le_toInt w
  have h2 := BitVec.toInt_lt (x := w)
  norm_num [wmin, wmax] at *
  omega

/-- An integer in the word range survives as a word. -/
theorem toInt_ofInt {r : Int} (h1 : wmin ≤ r) (h2 : r ≤ wmax) : (BitVec.ofInt 64 r).toInt = r := by
  rw [BitVec.toInt_ofInt]
  norm_num [wmin, wmax] at *
  rw [Int.bmod_def]
  omega

theorem narrow_of_isWord {op : Word} {r : Int} (h1 : wmin ≤ r) (h2 : r ≤ wmax) :
    narrow op r = .ok (BitVec.ofInt 64 r) :=
  if_pos (isWord_iff.2 ⟨h1, h2⟩)

theorem narrow_of_overflow {op : Word} {r : Int} (h : r < wmin ∨ wmax < r) : narrow op r = .error (.overflowFault op) :=
  if_neg fun hw => by
    have := isWord_iff.1 hw
    omega

/-! ### Input -/

/-- The source has nothing: the core waits on, and an entry `wait` of the oracle is used up. -/
theorem awaitInput_of_nothing {dst : Word} {s : State} (h : s.input = [] ∨ ∃ rest, s.input = .wait :: rest) :
    awaitInput dst s = { s with input := s.input.tail } := by
  obtain ⟨mem, size, pc, status, faultKind, faultPc, faultInfo, input, trace⟩ := s
  rcases h with h | ⟨rest, h⟩ <;> cases h <;> rfl

/-- The source gives a value and the destination is in range. -/
theorem awaitInput_of_value {dst v : Word} {rest : List (InputEvent Word)} {s : State}
    (h : s.input = .answer (.value v) :: rest) (hd : s.InRange dst) :
    awaitInput dst s = advance 2 { s with
      mem := s.mem.write (cellIndex dst) v, status := .running, input := rest,
      trace := s.trace ++ [.answer (.value v)] } := by
  unfold awaitInput
  rw [h]
  exact storeResult_of_inRange (s := { takeAnswer (.value v) rest s with status := .running }) hd v 2

/-- The source gives a value and the destination is out of range: the value is taken and lost. -/
theorem awaitInput_of_lost_value {dst v : Word} {rest : List (InputEvent Word)} {s : State}
    (h : s.input = .answer (.value v) :: rest) (hd : ¬ s.InRange dst) :
    awaitInput dst s = raise (.addressFault dst) (takeAnswer (.value v) rest s) := by
  unfold awaitInput
  rw [h]
  exact storeResult_of_not_inRange (s := { takeAnswer (.value v) rest s with status := .running }) hd v 2

/-- The source aborts. -/
theorem awaitInput_of_abort {dst : Word} {rest : List (InputEvent Word)} {s : State}
    (h : s.input = .answer .abort :: rest) :
    awaitInput dst s = raise .inputAbort (takeAnswer .abort rest s) := by
  unfold awaitInput
  rw [h]

/-- Everything a waiting core can do with what its input source says next. -/
theorem awaitInput_cases (dst : Word) (s : State) :
    ((s.input = [] ∨ ∃ rest, s.input = .wait :: rest) ∧ awaitInput dst s = { s with input := s.input.tail }) ∨
    (∃ v rest, s.input = .answer (.value v) :: rest ∧ s.InRange dst ∧
      awaitInput dst s = advance 2 { s with
        mem := s.mem.write (cellIndex dst) v, status := .running, input := rest,
        trace := s.trace ++ [.answer (.value v)] }) ∨
    (∃ v rest, s.input = .answer (.value v) :: rest ∧ ¬ s.InRange dst ∧
      awaitInput dst s = raise (.addressFault dst) (takeAnswer (.value v) rest s)) ∨
    (∃ rest, s.input = .answer .abort :: rest ∧
      awaitInput dst s = raise .inputAbort (takeAnswer .abort rest s)) := by
  match h : s.input with
  | [] => exact .inl ⟨.inl rfl, by rw [awaitInput_of_nothing (.inl h), h]⟩
  | .wait :: rest => exact .inl ⟨.inr ⟨rest, rfl⟩, by rw [awaitInput_of_nothing (.inr ⟨rest, h⟩), h]⟩
  | .answer (.value v) :: rest =>
    by_cases hd : s.InRange dst
    · exact .inr (.inl ⟨v, rest, rfl, hd, awaitInput_of_value h hd⟩)
    · exact .inr (.inr (.inl ⟨v, rest, rfl, hd, awaitInput_of_lost_value h hd⟩))
  | .answer .abort :: rest => exact .inr (.inr (.inr ⟨rest, rfl, awaitInput_of_abort h⟩))

/-- A step in WAIT_INPUT: the pending INPUT goes on, or its parameter cell does not exist. -/
theorem resumeInput_cases (s : State) :
    (∃ dst, memRead s (s.pc + 1#64) = .ok dst ∧ resumeInput s = awaitInput dst s) ∨
    (¬ s.InRange (s.pc + 1#64) ∧ resumeInput s = raise (.addressFault (s.pc + 1#64)) s) := by
  unfold resumeInput
  split
  · rename_i t h
    obtain ⟨h1, rfl⟩ := memRead_error_iff.1 h
    exact .inr ⟨h1, rfl⟩
  · rename_i dst h
    exact .inl ⟨dst, h, rfl⟩

/-! ### Instructions and steps -/

/-- ADD over the shared operation. -/
theorem exec_add (a b : Source) (md : Mode) (dst : Word) (s : State) :
    exec (.add a b md dst) s = .next (binary sumOf a b dst s) := rfl

/-- MUL over the shared operation. -/
theorem exec_mul (a b : Source) (md : Mode) (dst : Word) (s : State) :
    exec (.mul a b md dst) s = .next (binary productOf a b dst s) := rfl

/-- LT over the shared operation. -/
theorem exec_lessThan (a b : Source) (md : Mode) (dst : Word) (s : State) :
    exec (.lessThan a b md dst) s = .next (binary lessThanOf a b dst s) := rfl

/-- EQ over the shared operation. -/
theorem exec_equals (a b : Source) (md : Mode) (dst : Word) (s : State) :
    exec (.equals a b md dst) s = .next (binary equalsOf a b dst s) := rfl

/-- JT over the shared operation. -/
theorem exec_jumpIfTrue (a b : Source) (md : Mode) (s : State) :
    exec (.jumpIfTrue a b md) s = .next (jump isPositive a b s) := rfl

/-- JF over the shared operation. -/
theorem exec_jumpIfFalse (a b : Source) (md : Mode) (s : State) :
    exec (.jumpIfFalse a b md) s = .next (jump isZero a b s) := rfl

/-- OUT over the shared operation. -/
theorem exec_output (a : Source) (mb md : Mode) (s : State) :
    exec (.output a mb md) s = .next (withSource a s fun va => advance 2 (emit va s)) := rfl

/-- IN over the shared operation. -/
theorem exec_input (ma mb md : Mode) (dst : Word) (s : State) :
    exec (.input ma mb md dst) s = .next (awaitInput dst (requestInput s)) := rfl

/-- HALT over the shared operation. -/
theorem exec_halt (ma mb md : Mode) (s : State) : exec (.halt ma mb md) s = .next (halt s) := rfl

/-- What an instruction can do to the state: raise a fault, write one cell, move the pc, emit a word, halt, or wait for input. -/
inductive Effect (i : Instr) (s : State) : State → Prop where
  | raised (t : Trap) : Effect i s (raise t s)
  | stored (dst r : Word) (h : s.InRange dst) :
      Effect i s (advance 4 { s with mem := s.mem.write (cellIndex dst) r })
  | jumped (w : Word) : Effect i s (setPc w s)
  | emitted (v : Word) : Effect i s (advance 2 (emit v s))
  | halted (ma mb md : Mode) (h : i = .halt ma mb md) : Effect i s (halt s)
  | asked (ma mb md : Mode) (dst : Word) (h : i = .input ma mb md dst) : Effect i s (awaitInput dst (requestInput s))

theorem binary_effect (i : Instr) (f : Word → Word → Except Trap Word) (a b : Source) (dst : Word) (s : State) :
    Effect i s (binary f a b dst s) := by
  obtain ⟨r, hd, h⟩ | ⟨t, h⟩ := binary_cases f a b dst s
  · rw [h]; exact .stored dst r hd
  · rw [h]; exact .raised t

theorem jump_effect (i : Instr) (c : Word → Bool) (a b : Source) (s : State) : Effect i s (jump c a b s) := by
  obtain ⟨w, h⟩ | ⟨t, h⟩ := jump_cases c a b s
  · rw [h]; exact .jumped w
  · rw [h]; exact .raised t

/-- Everything an instruction can do: it always answers a next state, by one of the effects. -/
theorem exec_cases (i : Instr) (s : State) : ∃ t, exec i s = .next t ∧ Effect i s t := by
  cases i with
  | add a b md dst => exact ⟨_, exec_add a b md dst s, binary_effect ..⟩
  | mul a b md dst => exact ⟨_, exec_mul a b md dst s, binary_effect ..⟩
  | lessThan a b md dst => exact ⟨_, exec_lessThan a b md dst s, binary_effect ..⟩
  | equals a b md dst => exact ⟨_, exec_equals a b md dst s, binary_effect ..⟩
  | jumpIfTrue a b md => exact ⟨_, exec_jumpIfTrue a b md s, jump_effect ..⟩
  | jumpIfFalse a b md => exact ⟨_, exec_jumpIfFalse a b md s, jump_effect ..⟩
  | output a mb md =>
    refine ⟨_, exec_output a mb md s, ?_⟩
    obtain ⟨va, ha⟩ | ha := source_cases s a
    · rw [withSource_of_value ha]; exact .emitted va
    · rw [withSource_of_fault ha]; exact .raised _
  | halt ma mb md => exact ⟨_, exec_halt ma mb md s, .halted ma mb md rfl⟩
  | input ma mb md dst => exact ⟨_, exec_input ma mb md dst s, .asked ma mb md dst rfl⟩

/-- What the sequencer finds at the pc: a run ends there exactly when the pc is outside memory. -/
theorem fetch_eq_offEnd_iff {s : State} : fetch s = .offEnd ↔ ¬ s.InRange s.pc := by
  unfold fetch
  by_cases h : s.InRange s.pc
  · rw [if_pos h]
    constructor
    · split <;> intro e <;> cases e
    · exact fun e => absurd h e
  · rw [if_neg h]
    exact ⟨fun _ => h, fun _ => rfl⟩

/-- Everything a step can do. -/
theorem step_cases (s : State) :
    (s.status = .running ∧ ¬ s.InRange s.pc ∧ step s = .next (fallOffEnd s)) ∨
    (∃ t, s.status = .running ∧ s.InRange s.pc ∧ fetch s = .trap t ∧ step s = .next (raise t s)) ∨
    (∃ i, s.status = .running ∧ s.InRange s.pc ∧ fetch s = .instr i ∧ step s = exec i s) ∨
    (s.status = .waitInput ∧ step s = .next (resumeInput s)) ∨
    (s.status.terminal = true ∧ step s = .next s) := by
  cases hs : s.status with
  | running =>
    cases hf : fetch s with
    | offEnd => exact .inl ⟨rfl, fetch_eq_offEnd_iff.1 hf, by simp only [step, hs, hf]⟩
    | trap t =>
      refine .inr (.inl ⟨t, rfl, ?_, rfl, by simp only [step, hs, hf]⟩)
      by_contra h
      rw [fetch_eq_offEnd_iff.2 h] at hf
      cases hf
    | instr i =>
      refine .inr (.inr (.inl ⟨i, rfl, ?_, rfl, by simp only [step, hs, hf]⟩))
      by_contra h
      rw [fetch_eq_offEnd_iff.2 h] at hf
      cases hf
  | waitInput => exact .inr (.inr (.inr (.inl ⟨rfl, by simp only [step, hs]⟩)))
  | halted => exact .inr (.inr (.inr (.inr ⟨rfl, by simp only [step, hs]⟩)))
  | offEnd => exact .inr (.inr (.inr (.inr ⟨rfl, by simp only [step, hs]⟩)))
  | faulted => exact .inr (.inr (.inr (.inr ⟨rfl, by simp only [step, hs]⟩)))

end Sys2Proof.Machine
end

