-- ==== Sys2Proof/Laws/Fetch.lean ====
section
/-! SUPPORT. What the sequencer fetches: the cells at an address, the instruction they make, and the first parameter cell
missing (spec/40_step.md R71 to R75). -/

namespace Sys2Proof.Machine

theorem Memory.length_cells (m : Memory) (a n : Nat) : (m.cells a n).length = n := by
  simp [Memory.cells]

theorem Memory.take_cells (m : Memory) (a : Nat) {n k : Nat} (h : k ≤ n) : (m.cells a n).take k = m.cells a k := by
  simp [Memory.cells, ← List.map_take, List.take_range, h]

theorem Memory.getElem?_cells (m : Memory) (a : Nat) {n k : Nat} (h : k < n) :
    (m.cells a n)[k]? = some (m.read (a + k)) := by
  simp [Memory.cells, h]

theorem length_fetchCells (s : State) (p : Word) : (fetchCells s p).length = min 4 (s.size - cellIndex p) :=
  Memory.length_cells _ _ _

/-- The cell `k` places after `p` is the `k`-th cell fetched, if it exists. -/
theorem getElem?_fetchCells {s : State} {p : Word} {k : Nat} (hk : k < 4) (h : cellIndex p + k < s.size) :
    (fetchCells s p)[k]? = some (s.mem.read (cellIndex p + k)) :=
  Memory.getElem?_cells _ _ (by omega)

/-- At an in-range address the first cell fetched is the one there. -/
theorem fetchCells_eq_cons {s : State} {p : Word} (h : s.InRange p) :
    fetchCells s p =
      s.mem.read (cellIndex p) :: s.mem.cells (cellIndex p + 1) (min 3 (s.size - (cellIndex p + 1))) := by
  have hl := cellIndex_lt h
  have hm : min 4 (s.size - cellIndex p) = min 3 (s.size - (cellIndex p + 1)) + 1 := by omega
  rw [fetchCells, hm, Memory.cells, List.range_succ_eq_map]
  simp only [List.map_cons, List.map_map, Memory.cells, Nat.add_zero]
  congr 1
  apply List.map_congr_left
  intro x _
  simp only [Function.comp]
  congr 1
  omega

/-- The fetch depends on memory, its length and the pc alone. -/
theorem fetch_congr {s t : State} (hm : t.mem = s.mem) (hn : t.size = s.size) (hp : t.pc = s.pc) : fetch t = fetch s := by
  simp only [fetch, fetchCells, State.InRange, hm, hn, hp]

/-- An instruction is fetched only from inside memory, and is what the decoder reads there. -/
theorem decode_of_fetch {s : State} {i : Instr} (h : fetch s = .instr i) :
    s.InRange s.pc ∧ ∃ rest, decode (fetchCells s s.pc) = .instr i rest := by
  unfold fetch at h
  split_ifs at h with hp
  split at h <;> cases h
  exact ⟨hp, _, by assumption⟩

/-- In range of `N <= WMAX - 3` the pc's small sums are exact (R12). -/
theorem toInt_add_ofNat {a : Word} {k : Nat} (h0 : 0 ≤ a.toInt) (h1 : a.toInt + 4 ≤ wmax) (hk : k ≤ 4) :
    (a + BitVec.ofNat 64 k).toInt = a.toInt + k := by
  have e : (BitVec.ofNat 64 k).toInt = k := by
    rw [BitVec.toInt_eq_toNat_cond, BitVec.toNat_ofNat, Nat.mod_eq_of_lt (by omega), if_pos (by omega)]
  rw [BitVec.toInt_add, e, Int.bmod_def]
  simp only [wmax] at h1
  omega

/-- Raising a fault is an abort with its report, and no port transaction. -/
theorem abortedWith_raise (t : Trap) (s : State) : AbortedWith t.kind t.info s (raise t s) ∧ PortsKept s (raise t s) := by
  simp [AbortedWith, PortsKept]

/-- No fault has the kind NONE. -/
theorem Trap.kind_ne_none (t : Trap) : t.kind ≠ .none := by
  cases t <;> simp [Trap.kind]

end Sys2Proof.Machine

namespace Sys2Proof

/-- With too few parameter words the first missing one is reported (R75). -/
theorem assemble_of_missing {op : Opcode} {ma mb md : Mode} {ps : List Word} (h : ps.length < op.arity) :
    assemble op ma mb md ps = .missing (ps.length + 1) := by
  cases op <;> simp only [Opcode.arity] at h <;> rcases ps with _ | ⟨a, _ | ⟨b, _ | ⟨c, ps⟩⟩⟩ <;>
    simp_all [assemble, takeParams1, takeParams2, takeParams3] <;> omega

/-- With enough parameter words an instruction is made of the word and the first `arity` of them (R50, R57). -/
theorem assemble_of_enough {op : Opcode} {ma mb md : Mode} {ps : List Word} (h : op.arity ≤ ps.length) :
    ∃ i, assemble op ma mb md ps = .instr i (ps.drop op.arity) ∧ encode i = encodeWord op ma mb md :: ps.take op.arity := by
  cases op <;> simp only [Opcode.arity] at h <;> rcases ps with _ | ⟨a, _ | ⟨b, _ | ⟨c, ps⟩⟩⟩ <;>
    simp_all [assemble, takeParams1, takeParams2, takeParams3, Opcode.arity] <;> first | omega | rfl

end Sys2Proof
end

