-- ==== Sys2Proof/Laws/PerInstr.lean ====
section
/-! SUPPORT. The per-instruction family `Encoding`: every instruction is well-formed, its cells are its word followed by as
many parameter words as its opcode's arity, and its fields name that opcode (spec/30_encoding.md R50, R54). -/

namespace Sys2Proof.Laws

/-- What the family says of one instruction. -/
def Encoding.Statement (i : Instr) : Prop :=
  i.wellFormed = true ∧ (encode i).length = 1 + i.opcode.arity ∧ i.fields.opcode = i.opcode.number

/-- Three digits of modes and a recognised opcode are well-formed fields. -/
theorem fields_wellFormed {op : Nat} (h : knownOpcodes.contains op = true) (ma mb md : Mode) :
    Fields.wellFormed ⟨op, ma.digit, mb.digit, md.digit⟩ = true := by
  simp only [Fields.wellFormed, h, Bool.true_and]
  cases ma <;> cases mb <;> cases md <;> rfl

theorem Encoding.add (a b : Source) (md : Mode) (dst : Word) : Encoding.Statement (.add a b md dst) :=
  ⟨fields_wellFormed rfl _ _ _, rfl, rfl⟩

theorem Encoding.mul (a b : Source) (md : Mode) (dst : Word) : Encoding.Statement (.mul a b md dst) :=
  ⟨fields_wellFormed rfl _ _ _, rfl, rfl⟩

theorem Encoding.input (ma mb md : Mode) (dst : Word) : Encoding.Statement (.input ma mb md dst) :=
  ⟨fields_wellFormed rfl _ _ _, rfl, rfl⟩

theorem Encoding.output (a : Source) (mb md : Mode) : Encoding.Statement (.output a mb md) :=
  ⟨fields_wellFormed rfl _ _ _, rfl, rfl⟩

theorem Encoding.jumpIfTrue (a b : Source) (md : Mode) : Encoding.Statement (.jumpIfTrue a b md) :=
  ⟨fields_wellFormed rfl _ _ _, rfl, rfl⟩

theorem Encoding.jumpIfFalse (a b : Source) (md : Mode) : Encoding.Statement (.jumpIfFalse a b md) :=
  ⟨fields_wellFormed rfl _ _ _, rfl, rfl⟩

theorem Encoding.lessThan (a b : Source) (md : Mode) (dst : Word) : Encoding.Statement (.lessThan a b md dst) :=
  ⟨fields_wellFormed rfl _ _ _, rfl, rfl⟩

theorem Encoding.equals (a b : Source) (md : Mode) (dst : Word) : Encoding.Statement (.equals a b md dst) :=
  ⟨fields_wellFormed rfl _ _ _, rfl, rfl⟩

theorem Encoding.halt (ma mb md : Mode) : Encoding.Statement (.halt ma mb md) :=
  ⟨fields_wellFormed rfl _ _ _, rfl, rfl⟩

end Sys2Proof.Laws
end

