-- ==== Sys2Proof/Tests/Slice0.lean ====
section
/-! SUPPORT. The model's own tests.  Expected results are the vectors of spec/95_test_vectors.md, named by their ids, and words
written out from spec/30_encoding.md; after them, a witness of the hypotheses of every obligation that has some. -/

namespace Sys2Proof.Tests

open Sys2Proof.Machine

/-! ### Helpers -/

/-- The state right after a launch of integers. -/
def begin (program : List Int) (startPc : Int) (source : List (InputEvent Word)) : State :=
  State.launched (program.map (BitVec.ofInt 64)) (BitVec.ofInt 64 startPc) source

/-- The next state, if an outcome is one. -/
def next? : Host.Outcome State Fault Refusal → Option State
  | .next t => some t
  | .fault _ => none
  | .refused _ => none

/-- Status, pc and cells after one step. -/
def seen (s : State) : Option (Status × Int × List Int) :=
  (next? (step s)).map fun t => (t.status, t.pc.toInt, (t.mem.cells 0 t.size).map fun w => w.toInt)

/-- The fault report after one step. -/
def report (s : State) : Option (FaultKind × Int × Int) :=
  (next? (step s)).map fun t => (t.faultKind, t.faultPc.toInt, t.faultInfo.toInt)

/-- Status and emitted words after one step. -/
def emitted (s : State) : Option (Status × List Int) :=
  (next? (step s)).map fun t => (t.status, t.outputSequence.map fun w => w.toInt)

/-! ### Well-formedness: a well-formed quadruple, and an ill-formed one for each check -/

theorem test_wellFormed_greatest : Fields.wellFormed ⟨99, 1, 1, 1⟩ = true := by decide
theorem test_illFormed_opcode_unknown : Fields.wellFormed ⟨77, 0, 0, 0⟩ = false := by decide
theorem test_illFormed_opcode_zero : Fields.wellFormed ⟨0, 0, 0, 0⟩ = false := by decide
theorem test_illFormed_mode_a : Fields.wellFormed ⟨3, 2, 0, 0⟩ = false := by decide
theorem test_illFormed_mode_b : Fields.wellFormed ⟨1, 0, 2, 0⟩ = false := by decide
theorem test_illFormed_mode_dst : Fields.wellFormed ⟨1, 0, 0, 2⟩ = false := by decide

/-! ### Decoding: the word of each constructor from R51 and R54, and the refusals -/

theorem test_decode_add : decode [1101#64, -3#64, 5#64, 0#64] =
    .instr (.add ⟨.immediate, -3#64⟩ ⟨.immediate, 5#64⟩ .position 0#64) [] := by decide
theorem test_decode_add_md : decode [10001#64, 6#64, 7#64, 8#64] =
    .instr (.add ⟨.position, 6#64⟩ ⟨.position, 7#64⟩ .immediate 8#64) [] := by decide
theorem test_decode_mul : decode [1002#64, 4#64, 3#64, 4#64, 33#64] =
    .instr (.mul ⟨.position, 4#64⟩ ⟨.immediate, 3#64⟩ .position 4#64) [33#64] := by decide
theorem test_decode_input : decode [103#64, 3#64] = .instr (.input .immediate .position .position 3#64) [] := by decide
theorem test_decode_output : decode [10104#64, -7#64] =
    .instr (.output ⟨.immediate, -7#64⟩ .position .immediate) [] := by decide
theorem test_decode_jumpIfTrue : decode [1005#64, 10#64, 0#64] =
    .instr (.jumpIfTrue ⟨.position, 10#64⟩ ⟨.immediate, 0#64⟩ .position) [] := by decide
theorem test_decode_jumpIfFalse : decode [106#64, 0#64, 6#64] =
    .instr (.jumpIfFalse ⟨.immediate, 0#64⟩ ⟨.position, 6#64⟩ .position) [] := by decide
theorem test_decode_lessThan : decode [107#64, 1#64, 2#64, 3#64] =
    .instr (.lessThan ⟨.immediate, 1#64⟩ ⟨.position, 2#64⟩ .position 3#64) [] := by decide
theorem test_decode_equals : decode [11008#64, 1#64, 2#64, 3#64] =
    .instr (.equals ⟨.position, 1#64⟩ ⟨.immediate, 2#64⟩ .immediate 3#64) [] := by decide
theorem test_decode_halt : decode [1099#64] = .instr (.halt .position .immediate .position) [] := by decide
theorem test_decode_zero_is_unknown : decode [0#64] = .unknownOpcode 0#64 := by decide
theorem test_decode_nine_is_unknown : decode [9#64] = .unknownOpcode 9#64 := by decide
theorem test_decode_keeps_whole_word : decode [11100#64] = .unknownOpcode 11100#64 := by decide
theorem test_decode_mode_before_opcode : decode [277#64] = .decodeFault 277#64 := by decide
theorem test_decode_unused_mode : decode [2099#64] = .decodeFault 2099#64 := by decide
theorem test_decode_negative : decode [-99#64] = .decodeFault (-99#64) := by decide
theorem test_decode_six_digits : decode [100000#64] = .decodeFault 100000#64 := by decide
theorem test_decode_missing : decode [7#64, 0#64, 0#64] = .missing 3 := by decide

/-! ### The host's two questions -/

theorem test_table_word_decodes : decodeTableWord 8 4 = some (.output ⟨.position, 0#64⟩ .position .position) := by decide
theorem test_table_word_runs : emitted (State.reset.withFetchWord 8 4) = some (.running, [4]) := by decide

/-! ### Sequencer -/

/-- VQ1, which is also the first step from reset. -/
theorem test_reset_runs_off : seen State.reset = some (.offEnd, 0, []) := by decide
/-- VQ3. -/
theorem test_negative_pc : seen (begin [1, 0, 0, 0, 99] (-1) []) = some (.offEnd, -1, [1, 0, 0, 0, 99]) := by decide
/-- VQ7. -/
theorem test_parameters_past_the_end : report (begin [99, 99, 99, 1] 3 []) = some (.addressFault, 3, 4) := by decide
/-- VF1. -/
theorem test_first_missing_parameter : report (begin [7, 0, 0] 0 []) = some (.addressFault, 0, 3) := by decide

/-! ### The codes on the result port (R13, R146) -/

theorem test_status_codes : [Status.running, .waitInput, .halted, .offEnd, .faulted].map Status.code = [0, 1, 2, 3, 4] := by
  decide
theorem test_fault_codes : [FaultKind.none, .decodeFault, .unknownOpcode, .addressFault, .overflowFault, .inputAbort].map
    FaultKind.code = [0, 1, 2, 3, 4, 5] := by decide

/-! ### One step per instruction -/

/-- S1 (R179): the destination is the instruction's own word. -/
theorem test_add_own_word : seen (begin [1, 0, 0, 0, 99] 0 []) = some (.running, 4, [2, 0, 0, 0, 99]) := by decide
/-- VA11: overflow is reported before the destination check. -/
theorem test_add_overflow : report (begin [1101, 9223372036854775807, 1, 99, 99] 0 []) = some (.overflowFault, 0, 1) := by
  decide
/-- VM7. -/
theorem test_mul_least : seen (begin [1102, 4294967296, -2147483648, 0, 99] 0 []) =
    some (.running, 4, [-9223372036854775808, 4294967296, -2147483648, 0, 99]) := by decide
/-- VM9. -/
theorem test_mul_overflow : report (begin [1102, -9223372036854775808, -1, 0, 99] 0 []) = some (.overflowFault, 0, 2) := by
  decide
/-- VI3: a mode digit at a destination is ignored. -/
theorem test_input_mode_ignored : seen (begin [103, 3, 99, 0] 0 [.answer (.value 7#64)]) =
    some (.running, 2, [103, 3, 99, 7]) := by decide
/-- VI12: an abort is reported before the destination check. -/
theorem test_input_abort : report (begin [3, 9, 99] 0 [.answer .abort]) = some (.inputAbort, 0, 0) := by decide
/-- VO1. -/
theorem test_output_immediate : emitted (begin [104, -7, 99] 0 []) = some (.running, [-7]) := by decide
/-- VO5. -/
theorem test_output_bad_address : emitted (begin [4, 2] 0 []) = some (.faulted, []) := by decide
/-- VJ3: the quirk, a negative value does not jump. -/
theorem test_jumpIfTrue_negative : seen (begin [1105, -1, 6, 104] 0 []) = some (.running, 3, [1105, -1, 6, 104]) := by decide
/-- VJ9: any target. -/
theorem test_jumpIfTrue_anywhere : seen (begin [1105, 1, -7] 0 []) = some (.running, -7, [1105, 1, -7]) := by decide
/-- VJ6. -/
theorem test_jumpIfFalse_taken : seen (begin [1106, 0, 6, 104] 0 []) = some (.running, 6, [1106, 0, 6, 104]) := by decide
/-- VJ7. -/
theorem test_jumpIfFalse_negative : seen (begin [1106, -1, 6, 104] 0 []) = some (.running, 3, [1106, -1, 6, 104]) := by decide
/-- VK1. -/
theorem test_lessThan_signed : seen (begin [7, 5, 6, 7, 99, -3, 2, 9] 0 []) =
    some (.running, 4, [7, 5, 6, 7, 99, -3, 2, 1]) := by decide
/-- VK4. -/
theorem test_lessThan_equal : seen (begin [1107, 4, 4, 5, 99, 9] 0 []) = some (.running, 4, [1107, 4, 4, 5, 99, 0]) := by
  decide
/-- VK8. -/
theorem test_equals_signed : seen (begin [8, 5, 6, 0, 99, 1, -1] 0 []) = some (.running, 4, [0, 5, 6, 0, 99, 1, -1]) := by
  decide
/-- VK9. -/
theorem test_equals_same_cell : seen (begin [8, 5, 5, 5, 99, 3] 0 []) = some (.running, 4, [8, 5, 5, 5, 99, 1]) := by decide
/-- VH1. -/
theorem test_halt_stays : seen (begin [99, 1101, 1, 1, 0] 0 []) = some (.halted, 0, [99, 1101, 1, 1, 0]) := by decide
/-- VH4. -/
theorem test_halt_bad_mode : report (begin [2099] 0 []) = some (.decodeFault, 0, 2099) := by decide

/-! ### Witnesses: states and operands that meet the hypotheses of the obligations -/

/-- VA1. -/
def adding : State := begin [1101, -3, 5, 0, 99] 0 []

/-- A core that has asked for a value and whose source has still to say `source`. -/
def waiting (source : List (InputEvent Word)) : State :=
  { begin [3, 2, 0] 0 source with status := .waitInput, trace := [.request] }

/-- A launched program that has ended with the given status. -/
def ended (st : Status) : State := { begin [99] 0 [] with status := st }

/-- A run that ended with a fault at its first word. -/
def faulted : State := raise (.unknownOpcode 77#64) (begin [77] 0 [])

/-- As many cells as a memory can have, all 0, and the pc at the last one. -/
def fullSize : State := { State.reset with size := 9223372036854775804, pc := 9223372036854775803#64 }

theorem witness_DecodeOfEncode : (Instr.halt .immediate .position .immediate).wellFormed = true := by decide

theorem witness_DecodedCells : ∃ cells rest i, decode cells = .instr i rest := ⟨[99#64], [], _, by rfl⟩

theorem witness_InstructionWord : ∃ w ps rest i, decode (w :: ps) = .instr i rest := ⟨11199#64, [], [], _, by rfl⟩

theorem witness_StepRunsTheDecoded : adding.status = .running ∧ adding.InRange adding.pc ∧
    decode (fetchCells adding adding.pc) =
      .instr (.add ⟨.immediate, -3#64⟩ ⟨.immediate, 5#64⟩ .position 0#64) [] := by decide

theorem witness_StepRunsTheStored : adding.status = .running ∧
    HoldsAtPc adding (encode (.add ⟨.immediate, -3#64⟩ ⟨.immediate, 5#64⟩ .position 0#64)) := by
  unfold HoldsAtPc; decide

theorem witness_PcOutside_below : (begin [1, 0, 0, 0, 99] (-1) []).status = .running ∧
    (begin [1, 0, 0, 0, 99] (-1) []).pc.toInt < 0 := by decide

theorem witness_PcOutside_above : (begin [1, 0, 0, 0, 99] 5 []).status = .running ∧
    ((begin [1, 0, 0, 0, 99] 5 []).size : Int) ≤ (begin [1, 0, 0, 0, 99] 5 []).pc.toInt := by decide

theorem witness_Malformed_negative : (begin [-1] 0 []).status = .running ∧
    memRead (begin [-1] 0 []) (begin [-1] 0 []).pc = .ok (-1#64) ∧ (-1#64).toInt < 0 := ⟨rfl, rfl, by decide⟩

theorem witness_Malformed_sixDigits : (begin [100000] 0 []).status = .running ∧
    memRead (begin [100000] 0 []) (begin [100000] 0 []).pc = .ok 100000#64 ∧ 99999 < (100000#64).toInt :=
  ⟨rfl, rfl, by decide⟩

theorem witness_Malformed_mode_a : (begin [203] 0 []).status = .running ∧
    memRead (begin [203] 0 []) (begin [203] 0 []).pc = .ok 203#64 ∧ 1 < (203#64).toInt / 100 % 10 := ⟨rfl, rfl, by decide⟩

theorem witness_Malformed_mode_b : (begin [2001] 0 []).status = .running ∧
    memRead (begin [2001] 0 []) (begin [2001] 0 []).pc = .ok 2001#64 ∧ 1 < (2001#64).toInt / 1000 % 10 :=
  ⟨rfl, rfl, by decide⟩

theorem witness_Malformed_mode_dst : (begin [20001] 0 []).status = .running ∧
    memRead (begin [20001] 0 []) (begin [20001] 0 []).pc = .ok 20001#64 ∧ 1 < (20001#64).toInt / 10000 % 10 :=
  ⟨rfl, rfl, by decide⟩

theorem witness_Unrecognised_least : (begin [0] 0 []).status = .running ∧
    memRead (begin [0] 0 []) (begin [0] 0 []).pc = .ok 0#64 ∧ 0 ≤ (0#64).toInt ∧ (0#64).toInt ≤ 99999 ∧
    (0#64).toInt / 100 % 10 ≤ 1 ∧ (0#64).toInt / 1000 % 10 ≤ 1 ∧ (0#64).toInt / 10000 % 10 ≤ 1 ∧
    (0#64).toInt % 100 ∉ ([1, 2, 3, 4, 5, 6, 7, 8, 99] : List Int) := ⟨rfl, rfl, by decide⟩

theorem witness_Unrecognised_greatest : (begin [11198] 0 []).status = .running ∧
    memRead (begin [11198] 0 []) (begin [11198] 0 []).pc = .ok 11198#64 ∧ 0 ≤ (11198#64).toInt ∧
    (11198#64).toInt ≤ 99999 ∧ (11198#64).toInt / 100 % 10 ≤ 1 ∧ (11198#64).toInt / 1000 % 10 ≤ 1 ∧
    (11198#64).toInt / 10000 % 10 ≤ 1 ∧ (11198#64).toInt % 100 ∉ ([1, 2, 3, 4, 5, 6, 7, 8, 99] : List Int) :=
  ⟨rfl, rfl, by decide⟩

/-- The first parameter cell is missing. -/
theorem witness_MissingParameter_first : (begin [4] 0 []).WithinCapacity ∧ (begin [4] 0 []).status = .running ∧
    memRead (begin [4] 0 []) (begin [4] 0 []).pc = .ok 4#64 ∧
    classify 4#64 = .valid .output .position .position .position ∧ 1 ≤ Opcode.arity .output ∧
    ((begin [4] 0 []).size : Int) ≤ (begin [4] 0 []).pc.toInt + 1 ∧
    (begin [4] 0 []).pc.toInt + (1 - 1) < (begin [4] 0 []).size :=
  ⟨by unfold State.WithinCapacity; decide, rfl, rfl, by decide⟩

/-- The last parameter cell is missing. -/
theorem witness_MissingParameter_last : (begin [7, 0, 0] 0 []).WithinCapacity ∧ (begin [7, 0, 0] 0 []).status = .running ∧
    memRead (begin [7, 0, 0] 0 []) (begin [7, 0, 0] 0 []).pc = .ok 7#64 ∧
    classify 7#64 = .valid .lessThan .position .position .position ∧ 3 ≤ Opcode.arity .lessThan ∧
    ((begin [7, 0, 0] 0 []).size : Int) ≤ (begin [7, 0, 0] 0 []).pc.toInt + 3 ∧
    (begin [7, 0, 0] 0 []).pc.toInt + (3 - 1) < (begin [7, 0, 0] 0 []).size :=
  ⟨by unfold State.WithinCapacity; decide, rfl, rfl, by decide⟩

/-- The last parameter is in the last cell. -/
theorem witness_MissingParameter_none : (begin [1105, 1, 3] 0 []).WithinCapacity ∧
    (begin [1105, 1, 3] 0 []).status = .running ∧
    memRead (begin [1105, 1, 3] 0 []) (begin [1105, 1, 3] 0 []).pc = .ok 1105#64 ∧
    classify 1105#64 = .valid .jumpIfTrue .immediate .immediate .position ∧
    (begin [1105, 1, 3] 0 []).pc.toInt + Opcode.arity .jumpIfTrue < (begin [1105, 1, 3] 0 []).size :=
  ⟨by unfold State.WithinCapacity; decide, rfl, rfl, by decide⟩

theorem witness_TerminalState : (ended .halted).status = .halted ∧ (ended .offEnd).status = .offEnd ∧
    faulted.status = .faulted := by decide

theorem witness_SequentialPc : fullSize.WithinCapacity ∧ fullSize.InRange fullSize.pc := by
  unfold State.WithinCapacity; decide

/-- Cell 4 of S2 is written, and is the word at pc 4 and the third parameter at pc 1. -/
theorem witness_WriteIsSeen : adding.mem.wf = true ∧ (∃ t, memWrite adding 4#64 2#64 = .ok t ∧
    t.InRange 4#64 ∧ (4#64).toInt + (0 : Nat) = (4#64).toInt ∧ t.InRange 1#64 ∧ (1#64).toInt + (3 : Nat) = (4#64).toInt) :=
  ⟨by decide, _, rfl, by decide⟩

theorem witness_MemoryNeverGrows_step : ∃ t, step adding = .next t ∧ adding.mem.below adding.size = true :=
  ⟨_, rfl, by decide⟩

/-- Both results at the ends of the word range, and a destination at `N`. -/
theorem witness_MemoryNeverGrows_writes :
    SourceValue adding ⟨.immediate, 9223372036854775807#64⟩ 9223372036854775807#64 ∧
    SourceValue adding ⟨.immediate, -1#64⟩ (-1#64) ∧ (adding.size : Int) ≤ (5#64).toInt ∧
    wmin ≤ (9223372036854775807#64).toInt + (-1#64).toInt ∧ (9223372036854775807#64).toInt + (-1#64).toInt ≤ wmax ∧
    wmin ≤ (9223372036854775807#64).toInt * (-1#64).toInt ∧ (9223372036854775807#64).toInt * (-1#64).toInt ≤ wmax ∧
    (begin [3, 5, 99] 0 [.answer (.value 1#64)]).input = .answer (.value 1#64) :: [] := by
  unfold SourceValue; decide

theorem witness_NegativeAndTooLarge : adding.InRange 0#64 ∧ adding.InRange 4#64 ∧ (-1#64).toInt < 0 ∧
    (adding.size : Int) ≤ (5#64).toInt := by decide

/-- Both addresses are the cell VA1 writes. -/
theorem witness_AStepWritesAtMostOneCell : adding.mem.wf = true ∧
    ∃ t, step adding = .next t ∧ memRead t 0#64 ≠ memRead adding 0#64 := ⟨by decide, _, rfl, by decide⟩

/-- The sum is WMIN, then WMAX; the destination is the first cell, then the last. -/
theorem witness_AddStores : adding.mem.wf = true ∧
    SourceValue adding ⟨.immediate, -9223372036854775807#64⟩ (-9223372036854775807#64) ∧
    SourceValue adding ⟨.immediate, -1#64⟩ (-1#64) ∧ (-9223372036854775807#64).toInt + (-1#64).toInt = wmin ∧
    SourceValue adding ⟨.immediate, 9223372036854775802#64⟩ 9223372036854775802#64 ∧
    SourceValue adding ⟨.position, 2#64⟩ 5#64 ∧ (9223372036854775802#64).toInt + (5#64).toInt = wmax ∧
    adding.InRange 0#64 ∧ adding.InRange 4#64 := by
  unfold SourceValue; decide

/-- The product is WMIN, then `- WMAX`. -/
theorem witness_MulStores : adding.mem.wf = true ∧
    SourceValue adding ⟨.immediate, 4294967296#64⟩ 4294967296#64 ∧
    SourceValue adding ⟨.immediate, -2147483648#64⟩ (-2147483648#64) ∧
    (4294967296#64).toInt * (-2147483648#64).toInt = wmin ∧
    SourceValue adding ⟨.immediate, 9223372036854775807#64⟩ 9223372036854775807#64 ∧
    SourceValue adding ⟨.immediate, -1#64⟩ (-1#64) ∧
    wmin ≤ (9223372036854775807#64).toInt * (-1#64).toInt ∧ (9223372036854775807#64).toInt * (-1#64).toInt ≤ wmax ∧
    adding.InRange 0#64 := by
  unfold SourceValue; decide

/-- `WMAX + 1` and `WMIN - 1`. -/
theorem witness_Overflow_sum :
    SourceValue adding ⟨.immediate, 9223372036854775807#64⟩ 9223372036854775807#64 ∧
    SourceValue adding ⟨.immediate, 1#64⟩ 1#64 ∧ wmax + 1 = (9223372036854775807#64).toInt + (1#64).toInt ∧
    SourceValue adding ⟨.immediate, -9223372036854775808#64⟩ (-9223372036854775808#64) ∧
    SourceValue adding ⟨.immediate, -1#64⟩ (-1#64) ∧
    (-9223372036854775808#64).toInt + (-1#64).toInt = wmin - 1 := by
  unfold SourceValue; decide

/-- `WMIN * (-1) = WMAX + 1`, and a product below WMIN. -/
theorem witness_Overflow_product :
    SourceValue adding ⟨.immediate, -9223372036854775808#64⟩ (-9223372036854775808#64) ∧
    SourceValue adding ⟨.immediate, -1#64⟩ (-1#64) ∧
    wmax + 1 = (-9223372036854775808#64).toInt * (-1#64).toInt ∧
    SourceValue adding ⟨.immediate, 2#64⟩ 2#64 ∧ (-9223372036854775808#64).toInt * (2#64).toInt < wmin := by
  unfold SourceValue; decide

/-- Less, equal and greater. -/
theorem witness_Comparisons : adding.mem.wf = true ∧ SourceValue adding ⟨.position, 1#64⟩ (-3#64) ∧
    SourceValue adding ⟨.immediate, -2#64⟩ (-2#64) ∧ SourceValue adding ⟨.immediate, -3#64⟩ (-3#64) ∧
    SourceValue adding ⟨.immediate, -4#64⟩ (-4#64) ∧ adding.InRange 4#64 := by
  unfold SourceValue; decide

/-- Sources below memory and at `N`, beside one that has a value. -/
theorem witness_UnresolvableSource : SourceFaults adding ⟨.position, -1#64⟩ ∧ SourceFaults adding ⟨.position, 5#64⟩ ∧
    SourceValue adding ⟨.position, 4#64⟩ 99#64 := by
  unfold SourceFaults SourceValue; decide

theorem witness_NotTakenJump_operand : SourceValue (begin [105, 0, 50, 99] 0 []) ⟨.immediate, 0#64⟩ 0#64 ∧
    ¬ (begin [105, 0, 50, 99] 0 []).InRange 50#64 ∧ (0#64).toInt ≤ 0 ∧
    SourceValue (begin [105, 0, 50, 99] 0 []) ⟨.immediate, -1#64⟩ (-1#64) ∧ (-1#64).toInt ≤ 0 ∧
    (-1#64).toInt ≠ 0 ∧ SourceValue (begin [105, 0, 50, 99] 0 []) ⟨.immediate, 1#64⟩ 1#64 ∧ (1#64).toInt ≠ 0 := by
  unfold SourceValue; decide

theorem witness_NotTakenJump_cell : SourceValue (begin [1105, 1] 0 []) ⟨.immediate, 1#64⟩ 1#64 ∧
    ¬ (begin [1105, 1] 0 []).InRange 2#64 ∧ (begin [1105, 1] 0 []).status = .running ∧
    HoldsAtPc (begin [1105, 1] 0 []) [encodeWord .jumpIfTrue .immediate .immediate .position, 1#64] ∧
    (begin [1105, 1] 0 []).pc.toInt + 2 = (begin [1105, 1] 0 []).size := by
  unfold SourceValue HoldsAtPc; decide

/-- The tested value is 1, 0, -1; the target is in a cell. -/
theorem witness_Jumps : SourceValue adding ⟨.immediate, 1#64⟩ 1#64 ∧ 0 < (1#64).toInt ∧
    SourceValue adding ⟨.position, 3#64⟩ 0#64 ∧ (0#64).toInt ≤ 0 ∧ (0#64).toInt = 0 ∧
    SourceValue adding ⟨.immediate, -1#64⟩ (-1#64) ∧ (-1#64).toInt ≤ 0 ∧ (-1#64).toInt ≠ 0 ∧
    SourceValue adding ⟨.position, 1#64⟩ (-3#64) := by
  unfold SourceValue; decide

/-- Both jumps taken; the targets 4 (the last cell), 5 and -3. -/
theorem witness_TakenJump : adding.status = .running ∧ SourceValue adding ⟨.immediate, 1#64⟩ 1#64 ∧
    0 < (1#64).toInt ∧ SourceValue adding ⟨.immediate, 0#64⟩ 0#64 ∧ (0#64).toInt = 0 ∧
    SourceValue adding ⟨.immediate, 4#64⟩ 4#64 ∧ adding.InRange 4#64 ∧
    SourceValue adding ⟨.immediate, 5#64⟩ 5#64 ∧ ¬ adding.InRange 5#64 ∧
    SourceValue adding ⟨.position, 1#64⟩ (-3#64) ∧ ¬ adding.InRange (-3#64) := by
  unfold SourceValue; decide

theorem witness_InputStores : (begin [3, 2, 0] 0 [.answer (.value 99#64)]).mem.wf = true ∧
    (begin [3, 2, 0] 0 [.answer (.value 99#64)]).InRange 2#64 ∧
    (begin [3, 2, 0] 0 [.answer (.value 99#64)]).input = .answer (.value 99#64) :: [] := by decide

theorem witness_InputWaits : (begin [3, 0, 99] 0 []).input = [] ∧
    ∃ rest, (begin [3, 0, 99] 0 [.wait]).input = .wait :: rest := ⟨rfl, [], rfl⟩

theorem witness_Waiting : (waiting [.wait]).mem.wf = true ∧ (waiting [.wait]).status = .waitInput ∧
    memRead (waiting [.wait]) ((waiting [.wait]).pc + 1#64) = .ok 2#64 ∧ (waiting [.wait]).input = .wait :: [] ∧
    (waiting []).input = [] ∧ memRead (waiting []) ((waiting []).pc + 1#64) = .ok 2#64 :=
  ⟨by decide, rfl, rfl, rfl, rfl, rfl⟩

theorem witness_Waiting_value : (waiting [.answer (.value 99#64)]).mem.wf = true ∧
    (waiting [.answer (.value 99#64)]).status = .waitInput ∧
    memRead (waiting [.answer (.value 99#64)]) ((waiting [.answer (.value 99#64)]).pc + 1#64) = .ok 2#64 ∧
    (waiting [.answer (.value 99#64)]).input = .answer (.value 99#64) :: [] ∧
    (waiting [.answer (.value 99#64)]).InRange 2#64 := ⟨by decide, rfl, rfl, rfl, by decide⟩

theorem witness_Abort : (begin [3, 0, 99] 0 [.answer .abort]).input = .answer .abort :: [] ∧
    (waiting [.answer .abort]).input = .answer .abort :: [] ∧ (waiting [.answer .abort]).status = .waitInput ∧
    memRead (waiting [.answer .abort]) ((waiting [.answer .abort]).pc + 1#64) = .ok 2#64 := ⟨rfl, rfl, rfl, rfl⟩

theorem witness_InputBadDestination : ¬ (begin [3, 3, 99] 0 [.answer (.value 5#64)]).InRange 3#64 ∧
    ¬ (begin [3, 3, 99] 0 [.answer (.value 5#64)]).InRange (-1#64) ∧
    (begin [3, 3, 99] 0 [.answer (.value 5#64)]).input = .answer (.value 5#64) :: [] := by decide

theorem witness_Output : SourceValue (begin [4, 0, 99] 0 []) ⟨.position, 0#64⟩ 4#64 ∧
    SourceValue (begin [104, -7, 99] 0 []) ⟨.immediate, -7#64⟩ (-7#64) := by
  unfold SourceValue; decide

theorem witness_Delivered : (waiting []).mem.wf = true ∧ (waiting []).status = .waitInput ∧ (waiting []).input = [] ∧
    memRead (waiting []) ((waiting []).pc + 1#64) = .ok 2#64 ∧ (waiting []).InRange 2#64 ∧
    adding.status ≠ .waitInput := ⟨by decide, rfl, rfl, rfl, by decide, by decide⟩

theorem witness_PortTransactions : ∃ t, step adding = .next t := ⟨_, rfl⟩

theorem witness_Halt : (begin [0, 199] 1 []).status = .running ∧
    memRead (begin [0, 199] 1 []) (begin [0, 199] 1 []).pc = .ok 199#64 ∧
    (199#64).toInt ∈ ([99, 199, 1099, 1199, 10099, 10199, 11099, 11199] : List Int) := ⟨rfl, rfl, by decide⟩

theorem witness_FaultsArePrecise : ∃ t, step (begin [77] 0 []) = .next t ∧ (begin [77] 0 []).status ≠ .faulted ∧
    t.status = .faulted := ⟨_, rfl, by decide, by decide⟩

theorem witness_Ends_halted : ∃ t, step (begin [99] 0 []) = .next t ∧ (begin [99] 0 []).status = .running ∧
    t.status = .halted := ⟨_, rfl, rfl, by decide⟩

theorem witness_Ends_offEnd : ∃ t, step State.reset = .next t ∧ State.reset.status = .running ∧ t.status = .offEnd :=
  ⟨_, rfl, rfl, by decide⟩

theorem witness_Ends_faulted : ∃ t, step (waiting [.answer .abort]) = .next t ∧
    (waiting [.answer .abort]).status = .waitInput ∧ t.status = .faulted := ⟨_, rfl, rfl, by decide⟩

theorem witness_Ends_waiting : ∃ t, step (begin [3, 2, 0] 0 []) = .next t ∧ (begin [3, 2, 0] 0 []).status = .running ∧
    t.status = .waitInput := ⟨_, rfl, rfl, by decide⟩

theorem witness_MemoryCanonical : adding.CanonicalMemory ∧ adding.WithinCapacity ∧ ∃ t, step adding = .next t :=
  ⟨by unfold State.CanonicalMemory; decide, by unfold State.WithinCapacity; decide, _, rfl⟩

theorem witness_ReportCoherent : adding.CoherentReport ∧ (∃ t, step adding = .next t) ∧ faulted.CoherentReport ∧
    faulted.status = .faulted ∧ ∃ t, step faulted = .next t :=
  ⟨by unfold State.CoherentReport; decide, ⟨_, rfl⟩, by unfold State.CoherentReport; decide, rfl, _, rfl⟩

theorem witness_waiting_fetch : fetch (waiting []) = .instr (.input .position .position .position 2#64) := by decide

theorem witness_waiting_pc (source : List (InputEvent Word)) : (waiting source).PcFitsStatus :=
  ⟨fun _ => ⟨_, _, _, _, (fetch_congr (s := waiting []) (t := waiting source) rfl rfl rfl).trans witness_waiting_fetch⟩, nofun, nofun, nofun⟩

theorem witness_RequestsBalanced : (waiting [.wait]).WithinCapacity ∧ (waiting [.wait]).PcFitsStatus ∧
    (waiting [.wait]).BalancedRequests ∧ ∃ t, step (waiting [.wait]) = .next t :=
  ⟨by unfold State.WithinCapacity; decide, witness_waiting_pc _, by unfold State.BalancedRequests; decide, _, rfl⟩

/-- A state of each status. -/
theorem witness_PcFitsStatus : (∃ t, adding.PcFitsStatus ∧ step adding = .next t) ∧
    (∃ t, (waiting []).PcFitsStatus ∧ step (waiting []) = .next t) ∧
    (∃ t, (ended .halted).PcFitsStatus ∧ step (ended .halted) = .next t) ∧
    (∃ t, (fallOffEnd State.reset).PcFitsStatus ∧ step (fallOffEnd State.reset) = .next t) ∧
    ∃ t, faulted.PcFitsStatus ∧ step faulted = .next t :=
  ⟨⟨_, ⟨nofun, nofun, nofun, nofun⟩, rfl⟩, ⟨_, witness_waiting_pc _, rfl⟩,
    ⟨_, ⟨nofun, fun _ => ⟨_, _, _, rfl⟩, nofun, nofun⟩, rfl⟩,
    ⟨_, ⟨nofun, nofun, fun _ => by decide, nofun⟩, rfl⟩, _, ⟨nofun, nofun, nofun, fun _ => by decide⟩, rfl⟩

theorem witness_StepOfTheSpec : adding.CanonicalMemory ∧ adding.WithinCapacity ∧ adding.PcFitsStatus ∧
    (∃ t, step adding = .next t) ∧ (waiting [.answer .abort]).CanonicalMemory ∧
    (waiting [.answer .abort]).WithinCapacity ∧ (waiting [.answer .abort]).PcFitsStatus ∧
    ∃ t, step (waiting [.answer .abort]) = .next t :=
  ⟨by unfold State.CanonicalMemory; decide, by unfold State.WithinCapacity; decide, ⟨nofun, nofun, nofun, nofun⟩,
    ⟨_, rfl⟩, by unfold State.CanonicalMemory; decide, by unfold State.WithinCapacity; decide, witness_waiting_pc _, _, rfl⟩

theorem witness_Unbounded : adding.CanonicalMemory ∧ adding.WithinCapacity ∧ adding.PcFitsStatus ∧
    ∃ t, step adding = .next t ∧ (adding.status ≠ .faulted → t.faultKind = .overflowFault → t.status ≠ .faulted) :=
  ⟨by unfold State.CanonicalMemory; decide, by unfold State.WithinCapacity; decide, ⟨nofun, nofun, nofun, nofun⟩,
    _, rfl, by decide⟩

/-- A program as long as the capacity, words at both ends of the range, with the least start pc and with none. -/
theorem witness_LaunchLoads : ((2 : Nat) : Int) ≤ wmax - 3 ∧ (ended .halted).status.terminal = true ∧
    ([wmin, wmax] : List Int).length ≤ 2 ∧ (∀ x ∈ [wmin, wmax], wmin ≤ x ∧ x ≤ wmax) ∧
    (∀ x, some wmin = some x → wmin ≤ x ∧ x ≤ wmax) ∧ ∀ x, (none : Option Int) = some x → wmin ≤ x ∧ x ≤ wmax :=
  ⟨by decide, by decide, by decide, by decide, fun x h => by cases h; decide, fun x h => by cases h⟩

theorem witness_LaunchedState : ((1 : Nat) : Int) ≤ wmax - 3 ∧
    ∃ t, launchWithin 1 [99] none [] (ended .halted) = .next t := ⟨by decide, _, rfl⟩

theorem witness_LaunchUnfit : (ended .offEnd).status.terminal = true ∧ 1 < ([0, 0] : List Int).length ∧
    ([wmax + 1] : List Int).length ≤ 1 ∧ (∃ x ∈ [wmax + 1], x < wmin ∨ wmax < x) ∧
    (∃ x ∈ [wmin - 1], x < wmin ∨ wmax < x) ∧ ∃ x, some (wmax + 1) = some x ∧ (x < wmin ∨ wmax < x) :=
  ⟨by decide, by decide, by decide, by decide, by decide, _, rfl, by decide⟩

theorem witness_LaunchErases : (ended .halted).status.terminal = true ∧ faulted.status.terminal = true ∧
    (∃ t, launchWithin 1 [99] none [] (ended .halted) = .next t) ∧ adding.status = .running ∧
    (waiting []).status = .waitInput := ⟨by decide, by decide, ⟨_, rfl⟩, rfl, rfl⟩

theorem witness_ResultPort : adding.status = .running ∧ (waiting []).status = .waitInput ∧
    (ended .halted).status = .halted ∧ (ended .offEnd).status = .offEnd ∧ faulted.status = .faulted ∧
    (ended .halted).InRange 0#64 := by decide

end Sys2Proof.Tests
end

section
/-! SUPPORT. The fault report along a step (spec/10_state.md R14) and the result port (R22). -/

namespace Sys2Proof.Machine

/-! ### Terminal statuses -/

theorem Status.terminal_iff {st : Status} :
    st.terminal = true ↔ st = .halted ∨ st = .offEnd ∨ st = .faulted := by
  cases st <;> simp [Status.terminal]

theorem Status.terminal_eq_false_iff {st : Status} :
    st.terminal = false ↔ st = .running ∨ st = .waitInput := by
  cases st <;> simp [Status.terminal]

/-- An ended run is frozen (R70, R176). -/
theorem step_of_terminal {s : State} (h : s.status.terminal = true) : step s = .next s := by
  have live {st : Status} (hst : st.terminal = false) : s.status ≠ st := by
    rintro rfl
    simp [h] at hst
  obtain ⟨hs, -⟩ | ⟨_, hs, -⟩ | ⟨_, hs, -⟩ | ⟨hs, -⟩ | ⟨-, hstep⟩ := step_cases s
  · exact absurd hs (live rfl)
  · exact absurd hs (live rfl)
  · exact absurd hs (live rfl)
  · exact absurd hs (live rfl)
  · exact hstep

/-! ### The fault report -/

/-- Whatever the report was, raising a fault writes a coherent one (R148). -/
theorem raise_coherentReport (t : Trap) (s : State) : (raise t s).CoherentReport :=
  ⟨fun h => absurd rfl h, fun _ => ⟨t.kind_ne_none, rfl⟩⟩

/-- Outside FAULTED the report stays coherent as long as its registers keep their values. -/
theorem State.CoherentReport.of_report_kept {s t : State} (h : s.CoherentReport) (hs : s.status ≠ .faulted)
    (ht : t.status ≠ .faulted) (hk : t.faultKind = s.faultKind) (hp : t.faultPc = s.faultPc)
    (hi : t.faultInfo = s.faultInfo) : t.CoherentReport := by
  refine ⟨fun _ => ?_, fun e => absurd e ht⟩
  rw [hk, hp, hi]
  exact h.1 hs

theorem awaitInput_coherentReport {s : State} (dst : Word) (h : s.CoherentReport) (hs : s.status ≠ .faulted) :
    (awaitInput dst s).CoherentReport := by
  obtain ⟨-, e⟩ | ⟨v, rest, -, -, e⟩ | ⟨v, rest, -, -, e⟩ | ⟨rest, -, e⟩ := awaitInput_cases dst s <;> rw [e]
  · exact h.of_report_kept hs hs rfl rfl rfl
  · exact h.of_report_kept hs nofun rfl rfl rfl
  · exact raise_coherentReport _ _
  · exact raise_coherentReport _ _

theorem resumeInput_coherentReport {s : State} (h : s.CoherentReport) (hs : s.status ≠ .faulted) :
    (resumeInput s).CoherentReport := by
  obtain ⟨dst, -, e⟩ | ⟨-, e⟩ := resumeInput_cases s <;> rw [e]
  · exact awaitInput_coherentReport dst h hs
  · exact raise_coherentReport _ _

theorem Effect.coherentReport {i : Instr} {s t : State} (he : Effect i s t) (h : s.CoherentReport)
    (hs : s.status ≠ .faulted) : t.CoherentReport := by
  cases he with
  | raised t => exact raise_coherentReport t s
  | stored => exact h.of_report_kept hs hs rfl rfl rfl
  | jumped => exact h.of_report_kept hs hs rfl rfl rfl
  | emitted => exact h.of_report_kept hs hs rfl rfl rfl
  | halted => exact h.of_report_kept hs nofun rfl rfl rfl
  | asked _ _ _ dst => exact awaitInput_coherentReport dst (h.of_report_kept hs nofun rfl rfl rfl) nofun

theorem step_coherentReport {s t : State} (h : s.CoherentReport) (hstep : step s = .next t) : t.CoherentReport := by
  obtain ⟨hs, -, e⟩ | ⟨_, -, -, -, e⟩ | ⟨i, hs, -, -, e⟩ | ⟨hs, e⟩ | ⟨-, e⟩ := step_cases s
  · cases e.symm.trans hstep
    exact h.of_report_kept (by simp [hs]) nofun rfl rfl rfl
  · cases e.symm.trans hstep
    exact raise_coherentReport _ _
  · obtain ⟨u, hu, he⟩ := exec_cases i s
    cases hu.symm.trans (e.symm.trans hstep)
    exact he.coherentReport h (by simp [hs])
  · cases e.symm.trans hstep
    exact resumeInput_coherentReport h (by simp [hs])
  · cases e.symm.trans hstep
    exact h

/-- Settles O41: a step raises a fault, keeps the three registers outside FAULTED, or is the stutter of an ended run. -/
theorem everyStepKeepsTheFaultReportCoherent : Obligations.EveryStepKeepsTheFaultReportCoherent := by
  intro s t h hstep
  refine ⟨step_coherentReport h hstep, fun hs => ?_⟩
  cases (step_of_terminal (Status.terminal_iff.2 (.inr (.inr hs)))).symm.trans hstep
  exact ⟨rfl, rfl, rfl⟩

/-! ### The result port -/

theorem readResult_of_live {s : State} (h : s.status.terminal = false) : readResult s = none := by
  simp [readResult, h]

theorem readResult_of_terminal {s : State} (h : s.status.terminal = true) :
    readResult s = some
      { mem := s.mem.cells 0 s.size, status := s.status.code, pc := s.pc, faultKind := s.faultKind.code,
        faultPc := s.faultPc, faultInfo := s.faultInfo, output := s.outputSequence } :=
  if_pos h

/-- The dump of memory holds, at each in-range address, the cell at that address. -/
theorem getElem?_cells_cellIndex {s : State} {x : Word} (hx : s.InRange x) :
    (s.mem.cells 0 s.size)[cellIndex x]? = some (s.mem.read (cellIndex x)) := by
  rw [Memory.getElem?_cells _ _ (cellIndex_lt hx), Nat.zero_add]

/-- Settles O50: the port's two answers, by whether the status is terminal. -/
theorem resultPortShowsEndedRunsOnly : Obligations.ResultPortShowsEndedRunsOnly := by
  refine fun s => ⟨fun hs => readResult_of_live (Status.terminal_eq_false_iff.2 hs), fun hs => ?_⟩
  exact ⟨_, readResult_of_terminal (Status.terminal_iff.2 hs), rfl, rfl, rfl, rfl, rfl, rfl,
    Memory.length_cells _ _ _, fun _ => getElem?_cells_cellIndex⟩

end Sys2Proof.Machine
end

section
/-! SUPPORT. Memory (spec/20_memory.md): a write and what is read and fetched after it (R44), the valid addresses (R46), and
that no step makes memory longer (R47). -/

namespace Sys2Proof.Machine

/-! ### The valid addresses (R46) -/

theorem not_inRange_iff {s : State} {a : Word} : ¬ s.InRange a ↔ a.toInt < 0 ∨ (s.size : Int) ≤ a.toInt := by
  unfold State.InRange
  omega

theorem abortedWith_binary_of_bad_destination {s : State} {a b : Source} {va vb r dst : Word}
    {f : Word → Word → Except Trap Word} (ha : SourceValue s a va) (hb : SourceValue s b vb) (hf : f va vb = .ok r)
    (hd : ¬ s.InRange dst) :
    AbortedWith .addressFault dst s (binary f a b dst s) ∧ PortsKept s (binary f a b dst s) := by
  rw [binary_of_values ha hb hf, storeResult_of_not_inRange hd]
  exact abortedWith_raise (.addressFault dst) s

theorem abortedWith_binary_of_bad_source {s : State} {a : Source} (ha : SourceFaults s a)
    (f : Word → Word → Except Trap Word) (b : Source) (dst : Word) :
    AbortedWith .addressFault a.param s (binary f a b dst s) ∧ PortsKept s (binary f a b dst s) := by
  rw [binary, withSources_of_fault_left ha]
  exact abortedWith_raise (.addressFault a.param) s

/-- An arrived value is taken before the destination is checked, so it is lost, but memory is kept (R100, decision D10). -/
theorem abortedWith_input_of_bad_destination {s : State} {v dst : Word} {rest : List (InputEvent Word)}
    (h : s.input = .answer (.value v) :: rest) (hd : ¬ s.InRange dst) :
    AbortedWith .addressFault dst s (awaitInput dst (requestInput s)) := by
  rw [awaitInput_of_lost_value (s := requestInput s) h hd]
  exact ⟨rfl, rfl, rfl, rfl, rfl, rfl, rfl⟩

/-- Settles O17: each access primitive, and the two roles of an operand, on both sides of the range check. -/
theorem negativeAndTooLargeAddressesFault : Obligations.NegativeAndTooLargeAddressesFault := by
  refine fun s x => ⟨fun h0 hN => ?_, fun h => ?_⟩
  · have hx : s.InRange x := ⟨h0, hN⟩
    exact ⟨⟨_, memRead_of_inRange hx⟩, fun _ => ⟨_, memWrite_of_inRange hx⟩⟩
  · have hx : ¬ s.InRange x := not_inRange_iff.2 h
    have hsource : SourceFaults s ⟨.position, x⟩ := ⟨rfl, hx⟩
    have himmediate (p : Word) : SourceValue s ⟨.immediate, p⟩ p := .inl ⟨rfl, rfl⟩
    exact ⟨memRead_of_not_inRange hx, fun _ => memWrite_of_not_inRange hx,
      fun b md dst => ⟨_, exec_add _ b md dst s, abortedWith_binary_of_bad_source hsource _ b dst⟩,
      fun p q md => ⟨_, exec_lessThan _ _ md x s,
        abortedWith_binary_of_bad_destination (himmediate p) (himmediate q) rfl hx⟩⟩

/-! ### A write and what follows it (R44) -/

theorem memWrite_ok_iff {s t : State} {a v : Word} :
    memWrite s a v = .ok t ↔ s.InRange a ∧ t = { s with mem := s.mem.write (cellIndex a) v } := by
  by_cases h : s.InRange a
  · rw [memWrite_of_inRange h]
    exact ⟨fun e => ⟨h, (Except.ok.inj e).symm⟩, fun e => congrArg _ e.2.symm⟩
  · rw [memWrite_of_not_inRange h]
    exact ⟨nofun, fun e => absurd e.1 h⟩

/-- The cell `k` places after an in-range `p` is the cell at the address `a = p + k`. -/
theorem cellIndex_add {s : State} {p a : Word} {k : Nat} (hp : s.InRange p) (h : p.toInt + k = a.toInt) :
    cellIndex p + k = cellIndex a := by
  obtain ⟨hp0, -⟩ := hp
  unfold cellIndex
  omega

/-- What a data read of `a` answers is what a fetch finds there, from every in-range `p` at most three cells before. -/
theorem getElem?_fetchCells_of_memRead {s : State} {p a v : Word} {k : Nat} (hr : memRead s a = .ok v)
    (hp : s.InRange p) (hk : k < 4) (h : p.toInt + k = a.toInt) : (fetchCells s p)[k]? = some v := by
  obtain ⟨ha, hv⟩ := memRead_ok_iff.1 hr
  have hcell := cellIndex_add hp h
  rw [getElem?_fetchCells hk (hcell ▸ cellIndex_lt ha), hcell, hv]

/-- Settles O15: the address written reads as the word written, and a fetch finds what a data read answers. -/
theorem writeIsSeenByEveryLaterReadAndFetch : Obligations.WriteIsSeenByEveryLaterReadAndFetch := by
  intro s t a v hm hw
  obtain ⟨ha, rfl⟩ := memWrite_ok_iff.1 hw
  have hread := memRead_write_same (v := v) hm ha
  exact ⟨hread, fun _ => memRead_write_other hm ha, fun _ _ => getElem?_fetchCells_of_memRead hread⟩

/-! ### The length of memory (R47) -/

/-- The memory length is as before, and no cell beyond it is listed unless one was. -/
def MemoryNotGrown (s t : State) : Prop :=
  t.size = s.size ∧ (s.mem.below s.size = true → t.mem.below t.size = true)

theorem MemoryNotGrown.of_mem_kept {s t : State} (hn : t.size = s.size) (hm : t.mem = s.mem) : MemoryNotGrown s t :=
  ⟨hn, fun h => by rwa [hn, hm]⟩

theorem MemoryNotGrown.of_write {s t : State} {a v : Word} (ha : s.InRange a) (hn : t.size = s.size)
    (hm : t.mem = s.mem.write (cellIndex a) v) : MemoryNotGrown s t :=
  ⟨hn, fun h => by rw [hn, hm]; exact Memory.write_below h (cellIndex_lt ha)⟩

theorem awaitInput_memoryNotGrown (dst : Word) (s : State) : MemoryNotGrown s (awaitInput dst s) := by
  obtain ⟨-, e⟩ | ⟨v, rest, -, hd, e⟩ | ⟨v, rest, -, -, e⟩ | ⟨rest, -, e⟩ := awaitInput_cases dst s <;> rw [e]
  · exact .of_mem_kept rfl rfl
  · exact .of_write hd rfl rfl
  · exact .of_mem_kept rfl rfl
  · exact .of_mem_kept rfl rfl

theorem resumeInput_memoryNotGrown (s : State) : MemoryNotGrown s (resumeInput s) := by
  obtain ⟨dst, -, e⟩ | ⟨-, e⟩ := resumeInput_cases s <;> rw [e]
  · exact awaitInput_memoryNotGrown dst s
  · exact .of_mem_kept rfl rfl

theorem Effect.memoryNotGrown {i : Instr} {s t : State} (he : Effect i s t) : MemoryNotGrown s t := by
  cases he with
  | raised => exact .of_mem_kept rfl rfl
  | stored _ _ hd => exact .of_write hd rfl rfl
  | jumped => exact .of_mem_kept rfl rfl
  | emitted => exact .of_mem_kept rfl rfl
  | halted => exact .of_mem_kept rfl rfl
  | asked _ _ _ dst => exact awaitInput_memoryNotGrown dst (requestInput s)

theorem step_memoryNotGrown {s t : State} (hstep : step s = .next t) : MemoryNotGrown s t := by
  obtain ⟨-, -, e⟩ | ⟨_, -, -, -, e⟩ | ⟨i, -, -, -, e⟩ | ⟨-, e⟩ | ⟨-, e⟩ := step_cases s
  · cases e.symm.trans hstep
    exact .of_mem_kept rfl rfl
  · cases e.symm.trans hstep
    exact .of_mem_kept rfl rfl
  · obtain ⟨u, hu, he⟩ := exec_cases i s
    cases hu.symm.trans (e.symm.trans hstep)
    exact he.memoryNotGrown
  · cases e.symm.trans hstep
    exact resumeInput_memoryNotGrown s
  · cases e.symm.trans hstep
    exact .of_mem_kept rfl rfl

/-- Settles O16: a step writes at most one in-range cell, and each writing instruction checks its destination. -/
theorem memoryNeverGrows : Obligations.MemoryNeverGrows := by
  refine ⟨fun s t => step_memoryNotGrown, fun s a b va vb dst md ha hb hN => ?_⟩
  have hd : ¬ s.InRange dst := not_inRange_iff.2 (.inr hN)
  refine ⟨fun h1 h2 => ⟨_, exec_add a b md dst s, ?_⟩, fun h1 h2 => ⟨_, exec_mul a b md dst s, ?_⟩,
    ⟨_, exec_lessThan a b md dst s, ?_⟩, ⟨_, exec_equals a b md dst s, ?_⟩,
    fun ma mb v rest hi => ⟨_, exec_input ma mb md dst s, abortedWith_input_of_bad_destination hi hd⟩⟩
  · exact abortedWith_binary_of_bad_destination ha hb (narrow_of_isWord h1 h2) hd
  · exact abortedWith_binary_of_bad_destination ha hb (narrow_of_isWord h1 h2) hd
  · exact abortedWith_binary_of_bad_destination ha hb rfl hd
  · exact abortedWith_binary_of_bad_destination ha hb rfl hd

end Sys2Proof.Machine
end

section
/-! SUPPORT. The instruction word (spec/30_encoding.md): the valid words are the encoder's (R51, R60), and the words that are
not valid end the run with their fault (R52 to R56). -/

namespace Sys2Proof

/-! ### The valid words are the encoder's (R51, R60) -/

theorem Opcode.number_lt (op : Opcode) : op.number < 100 := by cases op <;> decide

/-- A valid word has the digits of its fields, so it is the word the encoder makes of them. -/
theorem classify_eq_valid_iff_eq_encodeWord {w : Word} {op : Opcode} {ma mb md : Mode} :
    classify w = .valid op ma mb md ↔ w = encodeWord op ma mb md := by
  constructor
  · rw [classify_eq_valid_iff]
    rintro ⟨h0, h1, ha, hb, hd, hop⟩
    rw [← BitVec.toInt_inj, toInt_encodeWord]
    simp only [digitAt] at ha hb hd
    omega
  · rintro rfl
    exact classify_encodeWord op ma mb md

/-- R60's table: per opcode, the eight words with `mode_a` varying fastest. -/
def Opcode.words (op : Opcode) : List Word :=
  [Mode.position, .immediate].flatMap fun md => [Mode.position, .immediate].flatMap fun mb =>
    [Mode.position, .immediate].map fun ma => encodeWord op ma mb md

/-- The words of R60's table in its order. -/
def validWords : List Word :=
  [Opcode.add, .mul, .input, .output, .jumpIfTrue, .jumpIfFalse, .lessThan, .equals, .halt].flatMap Opcode.words

theorem Mode.mem_position_immediate (m : Mode) : m ∈ [Mode.position, .immediate] := by cases m <;> decide

theorem Opcode.mem_words {op : Opcode} {w : Word} : w ∈ op.words ↔ ∃ ma mb md, w = encodeWord op ma mb md := by
  simp only [Opcode.words, List.mem_flatMap, List.mem_map, Mode.mem_position_immediate, true_and]
  exact ⟨fun ⟨md, mb, ma, e⟩ => ⟨ma, mb, md, e.symm⟩, fun ⟨ma, mb, md, e⟩ => ⟨md, mb, ma, e.symm⟩⟩

theorem mem_validWords {w : Word} : w ∈ validWords ↔ ∃ op ma mb md, classify w = .valid op ma mb md := by
  simp only [classify_eq_valid_iff_eq_encodeWord, validWords, List.mem_flatMap, Opcode.mem_words]
  refine exists_congr fun op => and_iff_right ?_
  cases op <;> decide

/-- Settles O5: the 72 numbers are the values of the encoder's words, which are the valid ones. -/
theorem validInstructionWordsAreTheSeventyTwo : Obligations.ValidInstructionWordsAreTheSeventyTwo := by
  intro w
  have htable : w.toInt ∈ validWords.map BitVec.toInt ↔ w ∈ validWords :=
    List.mem_map_of_injective fun _ _ => BitVec.eq_of_toInt_eq
  exact mem_validWords.symm.trans htable.symm

/-! ### The five digits of an instruction's word (R51) -/

/-- The word is the number with the given fields as its digits, and each field is read off its place. -/
def Fields.DigitsOf (f : Fields) (w : Word) : Prop :=
  w.toInt = 10000 * f.md + 1000 * f.mb + 100 * f.ma + f.opcode ∧ w.toInt % 100 = f.opcode ∧
    w.toInt / 100 % 10 = f.ma ∧ w.toInt / 1000 % 10 = f.mb ∧ w.toInt / 10000 % 10 = f.md

theorem digitsOf_encodeWord (op : Opcode) (ma mb md : Mode) :
    Fields.DigitsOf ⟨op.number, ma.digit, mb.digit, md.digit⟩ (encodeWord op ma mb md) := by
  have hop := op.number_lt
  have ha := ma.digit_le
  have hb := mb.digit_le
  have hd := md.digit_le
  simp only [Fields.DigitsOf, toInt_encodeWord, true_and]
  omega

/-- The first cell of an instruction's encoding is the word of its fields. -/
theorem encode_eq_word_cons (i : Instr) : ∃ w ps, encode i = w :: ps ∧ i.fields.DigitsOf w := by
  cases i <;> exact ⟨_, _, rfl, digitsOf_encodeWord _ _ _ _⟩

/-- Cells that decode to an instruction are its encoding and what is left of them (R50, R51). -/
theorem eq_encode_append_of_decode {cells rest : List Word} {i : Instr} (h : decode cells = .instr i rest) :
    cells = encode i ++ rest := by
  cases cells with
  | nil => cases h
  | cons w ps =>
    cases hc : classify w with
    | decodeFault => simp only [decode, hc, reduceCtorEq] at h
    | unknownOpcode => simp only [decode, hc, reduceCtorEq] at h
    | valid op ma mb md =>
      simp only [decode, hc] at h
      obtain hlen | hlen := Nat.lt_or_ge ps.length op.arity
      · rw [assemble_of_missing hlen] at h
        cases h
      · obtain ⟨j, hj, henc⟩ := assemble_of_enough (ma := ma) (mb := mb) (md := md) hlen
        cases hj.symm.trans h
        rw [henc, List.cons_append, List.take_append_drop, classify_eq_valid_iff_eq_encodeWord.1 hc]

/-- Settles O4: a decoded instruction's word is the encoder's, whose digits are the fields. -/
theorem instructionWordIsItsFiveDigits : Obligations.InstructionWordIsItsFiveDigits := by
  refine ⟨fun w ps rest i h => ?_, encode_eq_word_cons⟩
  obtain ⟨w', ps', henc, hdigits⟩ := encode_eq_word_cons i
  have hcells := eq_encode_append_of_decode h
  rw [henc] at hcells
  obtain ⟨rfl, -⟩ := List.cons.inj hcells
  obtain ⟨hw, hop, ha, hb, hd⟩ := hdigits
  exact ⟨hw, hop.symm, ha.symm, hb.symm, hd.symm⟩

/-! ### The words refused, by their value (R52, R53, R55) -/

theorem digitAt_toNat {n : Int} (h : 0 ≤ n) (k : Nat) : (digitAt k n.toNat : Int) = n / 10 ^ k % 10 := by
  simp [digitAt, h]

/-- Also for a negative word, which is refused whatever its digits: the digits of its value need not be those of `toNat`. -/
theorem classify_eq_decodeFault_iff_toInt {w : Word} :
    classify w = .decodeFault ↔ w.toInt < 0 ∨ 99999 < w.toInt ∨ 1 < w.toInt / 100 % 10 ∨ 1 < w.toInt / 1000 % 10 ∨
      1 < w.toInt / 10000 % 10 := by
  rw [classify_eq_decodeFault_iff]
  obtain h | h := lt_or_ge w.toInt 0
  · simp only [h, true_or]
  · have ha := digitAt_toNat h 2
    have hb := digitAt_toNat h 3
    have hd := digitAt_toNat h 4
    omega

theorem toNat_mod_mem_knownOpcodes {n : Int} (h : 0 ≤ n) (hm : n.toNat % 100 ∈ knownOpcodes) :
    n % 100 ∈ ([1, 2, 3, 4, 5, 6, 7, 8, 99] : List Int) := by
  have hcast : ((n.toNat % 100 : Nat) : Int) = n % 100 := by omega
  rw [← hcast]
  exact List.mem_map_of_mem (f := Nat.cast) hm

/-- A word that passes the decoder and whose two rightmost digits are no recognised opcode (R55). -/
theorem classify_eq_unknownOpcode_of_not_mem {w : Word} (hw : classify w ≠ .decodeFault)
    (hop : w.toInt % 100 ∉ ([1, 2, 3, 4, 5, 6, 7, 8, 99] : List Int)) : classify w = .unknownOpcode := by
  rw [ne_eq, classify_eq_decodeFault_iff] at hw
  exact classify_eq_unknownOpcode_iff.2 ⟨by omega, fun hm => hop (toNat_mod_mem_knownOpcodes (by omega) hm)⟩

end Sys2Proof

namespace Sys2Proof.Machine

/-! ### The fault of the word at the pc (R52 to R56) -/

theorem step_of_trap {s : State} {t : Trap} (hs : s.status = .running) (h : fetch s = .trap t) :
    step s = .next (raise t s) := by
  simp only [step, hs, h]

/-- A trap found at the pc aborts the run with its report. -/
theorem exists_abortedWith_of_trap {s : State} {t : Trap} (hs : s.status = .running) (h : fetch s = .trap t) :
    ∃ u, step s = .next u ∧ AbortedWith t.kind t.info s u ∧ PortsKept s u :=
  ⟨_, step_of_trap hs h, abortedWith_raise t s⟩

/-- The first cell fetched at the pc is the word a data read of the pc answers. -/
theorem exists_fetchCells_eq_cons {s : State} {w : Word} (h : memRead s s.pc = .ok w) :
    s.InRange s.pc ∧ ∃ ps, fetchCells s s.pc = w :: ps := by
  obtain ⟨hpc, rfl⟩ := memRead_ok_iff.1 h
  exact ⟨hpc, _, fetchCells_eq_cons hpc⟩

theorem fetch_of_decodeFault {s : State} {w : Word} (h : memRead s s.pc = .ok w) (hw : classify w = .decodeFault) :
    fetch s = .trap (.decodeFault w) := by
  obtain ⟨hpc, ps, hcells⟩ := exists_fetchCells_eq_cons h
  simp only [fetch, if_pos hpc, hcells, decode, hw]

theorem fetch_of_unknownOpcode {s : State} {w : Word} (h : memRead s s.pc = .ok w) (hw : classify w = .unknownOpcode) :
    fetch s = .trap (.unknownOpcode w) := by
  obtain ⟨hpc, ps, hcells⟩ := exists_fetchCells_eq_cons h
  simp only [fetch, if_pos hpc, hcells, decode, hw]

/-- Settles O9: the classifier refuses the word, and the fetch reports it. -/
theorem malformedWordRaisesDecodeFault : Obligations.MalformedWordRaisesDecodeFault := fun _ _ hs hr hw =>
  exists_abortedWith_of_trap hs (fetch_of_decodeFault hr (classify_eq_decodeFault_iff_toInt.2 hw))

/-- Settles O10: the word passes the decoder and its opcode is in no row of the table, so the fetch reports it. -/
theorem unrecognisedOpcodeRaisesUnknownOpcode : Obligations.UnrecognisedOpcodeRaisesUnknownOpcode := by
  intro s w hs hr h0 h1 ha hb hd hop
  have hpass : classify w ≠ .decodeFault := by
    rw [ne_eq, classify_eq_decodeFault_iff_toInt]
    omega
  exact exists_abortedWith_of_trap hs (fetch_of_unknownOpcode hr (classify_eq_unknownOpcode_of_not_mem hpass hop))

end Sys2Proof.Machine
end

section
/-! SUPPORT. The sequencer's phases before the effect (spec/40_step.md): the range check of the pc (R71), the parameter fetch
(R75) and the resolution of the sources (R76). -/

namespace Sys2Proof

theorem Opcode.arity_le (op : Opcode) : op.arity ≤ 3 := by cases op <;> decide

end Sys2Proof

namespace Sys2Proof.Machine

/-! ### The step of a running core, by what it fetches -/

theorem step_of_not_inRange {s : State} (hs : s.status = .running) (h : ¬ s.InRange s.pc) :
    step s = .next (fallOffEnd s) := by
  simp only [step, hs, fetch_eq_offEnd_iff.2 h]

theorem step_of_instr {s : State} {i : Instr} (hs : s.status = .running) (h : fetch s = .instr i) :
    step s = exec i s := by
  simp only [step, hs, h]

theorem step_of_waitInput {s : State} (hs : s.status = .waitInput) : step s = .next (resumeInput s) := by
  simp only [step, hs]

/-- Settles O8: the range check comes before the fetch. -/
theorem pcOutsideMemoryEndsTheRun : Obligations.PcOutsideMemoryEndsTheRun := fun _ hs hpc =>
  step_of_not_inRange hs (not_inRange_iff.2 hpc)

/-! ### The parameter fetch (R75) -/

/-- Behind a valid word the fetch answers what the assembler makes of the at most three cells that follow it. -/
theorem exists_parameter_cells {s : State} {w : Word} {op : Opcode} {ma mb md : Mode} (hr : memRead s s.pc = .ok w)
    (hw : classify w = .valid op ma mb md) :
    ∃ n, n = min 3 (s.size - (cellIndex s.pc + 1)) ∧
      decode (fetchCells s s.pc) = assemble op ma mb md (s.mem.cells (cellIndex s.pc + 1) n) := by
  obtain ⟨hpc, rfl⟩ := memRead_ok_iff.1 hr
  refine ⟨_, rfl, ?_⟩
  rw [fetchCells_eq_cons hpc]
  simp only [decode, hw]

theorem fetch_of_missing_parameter {s : State} {w : Word} {op : Opcode} {ma mb md : Mode} {i : Nat}
    (hr : memRead s s.pc = .ok w) (hw : classify w = .valid op ma mb md) (h1 : 1 ≤ i) (hi : i ≤ op.arity)
    (hmissing : (s.size : Int) ≤ s.pc.toInt + i) (hfirst : s.pc.toInt + (i - 1) < s.size) :
    fetch s = .trap (.addressFault (s.pc + BitVec.ofNat 64 i)) := by
  obtain ⟨n, hn, hdecode⟩ := exists_parameter_cells hr hw
  obtain ⟨hpc, -⟩ := memRead_ok_iff.1 hr
  have harity := op.arity_le
  have hni : n + 1 = i := by
    obtain ⟨h0, -⟩ := hpc
    unfold cellIndex at hn
    omega
  rw [assemble_of_missing (by rw [Memory.length_cells]; omega), Memory.length_cells, hni] at hdecode
  simp only [fetch, if_pos hpc, hdecode]

theorem fetch_of_all_parameters {s : State} {w : Word} {op : Opcode} {ma mb md : Mode}
    (hr : memRead s s.pc = .ok w) (hw : classify w = .valid op ma mb md) (hall : s.pc.toInt + op.arity < s.size) :
    ∃ i, fetch s = .instr i ∧ encode i = w :: s.mem.cells (cellIndex s.pc + 1) op.arity := by
  obtain ⟨n, hn, hdecode⟩ := exists_parameter_cells hr hw
  obtain ⟨hpc, -⟩ := memRead_ok_iff.1 hr
  have harity := op.arity_le
  have hle : op.arity ≤ n := by
    obtain ⟨h0, -⟩ := hpc
    unfold cellIndex at hn
    omega
  obtain ⟨i, hi, hencode⟩ := assemble_of_enough (ma := ma) (mb := mb) (md := md)
    (hle.trans_eq (Memory.length_cells s.mem (cellIndex s.pc + 1) n).symm)
  rw [Memory.take_cells _ _ hle, ← classify_eq_valid_iff_eq_encodeWord.1 hw] at hencode
  exact ⟨i, by simp only [fetch, if_pos hpc, hdecode, hi], hencode⟩

/-- In range of the capacity, the address of a parameter cell is exact (R12). -/
theorem toInt_pc_add {s : State} {k : Nat} (hc : s.WithinCapacity) (hpc : s.InRange s.pc) (hk : k ≤ 4) :
    (s.pc + BitVec.ofNat 64 k).toInt = s.pc.toInt + k := by
  obtain ⟨h0, hN⟩ := hpc
  unfold State.WithinCapacity at hc
  exact toInt_add_ofNat h0 (by omega) hk

/-- If not all of `n` parameter cells exist, one of them is the first one missing. -/
theorem exists_first_missing_parameter {s : State} {n : Nat} (hpc : s.InRange s.pc) (h : ¬ s.pc.toInt + n < s.size) :
    ∃ i : Nat, 1 ≤ i ∧ i ≤ n ∧ (s.size : Int) ≤ s.pc.toInt + i ∧ s.pc.toInt + (i - 1) < s.size := by
  obtain ⟨h0, hN⟩ := hpc
  exact ⟨(s.size - s.pc.toInt).toNat, by omega⟩

/-- Settles O11: the fetch answers the first missing cell's index, or an instruction made of the word and its cells. -/
theorem missingParameterCellRaisesAddressFault : Obligations.MissingParameterCellRaisesAddressFault := by
  intro s w op ma mb md hc hs hr hw
  constructor
  · intro i h1 hi hmissing hfirst
    have hpc := (memRead_ok_iff.1 hr).1
    have hexact := toInt_pc_add hc hpc (hi.trans (op.arity_le.trans (by decide)))
    have hfetch := fetch_of_missing_parameter hr hw h1 hi hmissing hfirst
    obtain ⟨t, ht, habort, hports⟩ := exists_abortedWith_of_trap hs hfetch
    exact ⟨t, _, ht, hexact, habort, hports⟩
  · intro hall
    obtain ⟨i, hfetch, hencode⟩ := fetch_of_all_parameters hr hw hall
    exact ⟨i, step_of_instr hs hfetch, hencode⟩

/-! ### What is fetched stands in memory -/

theorem inRange_pc_of_holdsAtPc {s : State} {ws : List Word} (h : HoldsAtPc s ws) (hws : ws ≠ []) : s.InRange s.pc := by
  obtain ⟨h0, hcells⟩ := h
  have hfirst := (hcells 0 (List.length_pos_iff.2 hws)).1
  exact ⟨h0, by simpa using hfirst⟩

/-- What is fetched as an instruction stands in memory as its encoding. -/
theorem holdsAtPc_of_fetch {s : State} {i : Instr} (h : fetch s = .instr i) : HoldsAtPc s (encode i) := by
  obtain ⟨⟨h0, hN⟩, rest, hdecode⟩ := decode_of_fetch h
  have hcells := eq_encode_append_of_decode hdecode
  have hlength := length_fetchCells s s.pc
  rw [hcells, List.length_append] at hlength
  refine ⟨h0, fun k hk => ?_⟩
  have hin : cellIndex s.pc + k < s.size := by omega
  have hcell := getElem?_fetchCells (by omega) hin
  rw [hcells, List.getElem?_append_left hk, List.getElem?_eq_getElem hk] at hcell
  unfold cellIndex at hin
  exact ⟨by omega, (Option.some.inj hcell).symm⟩

theorem memRead_pc_add {s : State} {ws : List Word} {k : Nat} (hc : s.WithinCapacity) (h : HoldsAtPc s ws)
    (hk : k < ws.length) (hk4 : k ≤ 4) : memRead s (s.pc + BitVec.ofNat 64 k) = .ok ws[k] := by
  have hpc := inRange_pc_of_holdsAtPc h (List.ne_nil_of_length_pos (by omega))
  have hexact := toInt_pc_add hc hpc hk4
  obtain ⟨h0, hcells⟩ := h
  obtain ⟨hin, hread⟩ := hcells k hk
  rw [cellIndex_add hpc hexact.symm] at hread
  exact memRead_ok_iff.2 ⟨⟨by omega, by omega⟩, hread⟩

/-- A waiting core whose pc is at an INPUT goes on with that INPUT (R18). -/
theorem resumeInput_of_fetch {s : State} {ma mb md : Mode} {dst : Word} (hc : s.WithinCapacity)
    (h : fetch s = .instr (.input ma mb md dst)) : resumeInput s = awaitInput dst s := by
  have hdst : memRead s (s.pc + 1#64) = .ok dst :=
    memRead_pc_add (k := 1) hc (holdsAtPc_of_fetch h) (by simp [encode]) (by decide)
  simp only [resumeInput, hdst]

/-! ### The sources, before the effect (R76) -/

theorem abortedWith_withSources_left {s : State} {a b : Source} (ha : SourceFaults s a) (k : Word → Word → State) :
    AbortedWith .addressFault a.param s (withSources a b s k) ∧ PortsKept s (withSources a b s k) := by
  rw [withSources_of_fault_left ha]
  exact abortedWith_raise (.addressFault a.param) s

theorem abortedWith_withSources_right {s : State} {a b : Source} {va : Word} (ha : SourceValue s a va)
    (hb : SourceFaults s b) (k : Word → Word → State) :
    AbortedWith .addressFault b.param s (withSources a b s k) ∧ PortsKept s (withSources a b s k) := by
  rw [withSources_of_fault_right ha hb]
  exact abortedWith_raise (.addressFault b.param) s

/-- Whatever its effect, an instruction of two sources resolves both first. -/
theorem exists_exec_eq_withSources {i : Instr} {a b : Source} {m : Mode} {d : Word} (s : State)
    (hi : i = .add a b m d ∨ i = .mul a b m d ∨ i = .lessThan a b m d ∨ i = .equals a b m d ∨ i = .jumpIfTrue a b m ∨
      i = .jumpIfFalse a b m) : ∃ k, exec i s = .next (withSources a b s k) := by
  rcases hi with rfl | rfl | rfl | rfl | rfl | rfl
  · exact ⟨_, exec_add a b m d s⟩
  · exact ⟨_, exec_mul a b m d s⟩
  · exact ⟨_, exec_lessThan a b m d s⟩
  · exact ⟨_, exec_equals a b m d s⟩
  · exact ⟨_, exec_jumpIfTrue a b m s⟩
  · exact ⟨_, exec_jumpIfFalse a b m s⟩

/-- Settles O23: the first of the two sources, then the second one, and the one source of OUT. -/
theorem unresolvableSourceRaisesAddressFault : Obligations.UnresolvableSourceRaisesAddressFault := by
  refine fun s a b i m m' d => ⟨fun hi => ?_, ?_⟩
  · obtain ⟨k, hexec⟩ := exists_exec_eq_withSources s hi
    exact ⟨fun ha => ⟨_, hexec, abortedWith_withSources_left ha k⟩,
      fun va ha hb => ⟨_, hexec, abortedWith_withSources_right ha hb k⟩⟩
  · rintro rfl ha
    refine ⟨_, exec_output a m m' s, ?_⟩
    rw [withSource_of_fault ha]
    exact abortedWith_raise (.addressFault a.param) s

end Sys2Proof.Machine
end

section
/-! SUPPORT. The integer view of a state (`State.toRef`) and R79's listing on it: each operation of the machine has its
counterpart in the transcription, on the state viewed as integers. -/

namespace Sys2Proof.Machine

/-! ### The cells of the view -/

theorem toRef_mem_length (s : State) : (s.toRef.mem.length : Int) = s.size := by
  simp [State.toRef, Memory.length_cells]

/-- Whether the pc is in range is the same question on the view. -/
theorem toRef_pc_inRange {s : State} :
    (0 ≤ s.toRef.pc ∧ s.toRef.pc < s.toRef.mem.length) ↔ s.InRange s.pc := by
  rw [toRef_mem_length]
  rfl

theorem refCell_toRef {s : State} {a : Int} {n : Nat} (ha : a.toNat = n) (hn : n < s.size) :
    refCell s.toRef a = (s.mem.read n).toInt := by
  subst ha
  simp [refCell, State.toRef, List.getD, Memory.getElem?_cells _ _ hn]

theorem refCell_toRef_of_inRange {s : State} {a : Word} (ha : s.InRange a) :
    refCell s.toRef a.toInt = (s.mem.read (cellIndex a)).toInt :=
  refCell_toRef rfl (cellIndex_lt ha)

/-- The cell `k` places after the pc, where the pc is known to have `ws` behind it. -/
theorem refCell_toRef_pc_add {s : State} {ws : List Word} (h : HoldsAtPc s ws) {k : Nat} (hk : k < ws.length) :
    refCell s.toRef (s.toRef.pc + k) = ws[k].toInt := by
  obtain ⟨h0, hcells⟩ := h
  obtain ⟨hin, hread⟩ := hcells k hk
  have hn : (s.toRef.pc + k).toNat = cellIndex s.pc + k := by
    simp only [State.toRef, cellIndex]
    omega
  rw [refCell_toRef hn (by unfold cellIndex; omega), hread]

theorem Memory.cells_write {m : Memory} (hm : m.wf = true) (a n : Nat) (v : Word) :
    (m.write a v).cells 0 n = (m.cells 0 n).set a v := by
  refine List.ext_getElem (by simp [Memory.length_cells]) fun k _ _ => ?_
  simp only [Memory.cells, List.getElem_map, List.getElem_range, List.getElem_set, Nat.zero_add]
  split_ifs with hk
  · rw [← hk, Memory.read_write_same hm]
  · rw [Memory.read_write_other hm (Ne.symm hk)]

/-! ### The operations on the view -/

theorem toRef_raise (t : Trap) (s : State) : (raise t s).toRef = refRaise t.kind t.info.toInt s.toRef := rfl

theorem toRef_write {s : State} (hm : s.mem.wf = true) (a v : Word) :
    State.toRef { s with mem := s.mem.write (cellIndex a) v } =
      { s.toRef with mem := s.toRef.mem.set a.toInt.toNat v.toInt } := by
  simp only [State.toRef, Memory.cells_write hm, List.map_set, cellIndex]

/-- The pc's advance is exact within the capacity (R12). -/
theorem toRef_advance {s : State} {len : Nat} (hc : s.WithinCapacity) (hpc : s.InRange s.pc) (hlen : len ≤ 4) :
    (advance len s).toRef = { s.toRef with pc := s.toRef.pc + len } := by
  simp only [State.toRef, advance_mem, advance_size, advance_pc, advance_status, advance_faultKind, advance_faultPc,
    advance_faultInfo, advance_input, advance_trace, toInt_pc_add hc hpc hlen]

theorem toRef_emit (v : Word) (s : State) :
    (emit v s).toRef = { s.toRef with trace := s.toRef.trace ++ [.emit v.toInt] } := by
  simp [State.toRef, PortEvent.toRef]

theorem toRef_requestInput (s : State) :
    (requestInput s).toRef = { s.toRef with status := .waitInput, trace := s.toRef.trace ++ [.request] } := by
  simp [State.toRef, PortEvent.toRef]

theorem toRef_takeAnswer (a : Answer Word) (rest : List (InputEvent Word)) (s : State) :
    (takeAnswer a rest s).toRef =
      { s.toRef with input := rest.map InputEvent.toRef, trace := s.toRef.trace ++ [.answer a.toRef] } := by
  simp [State.toRef, PortEvent.toRef]

/-! ### Sources on the view -/

theorem refResolve_of_value {s : State} {a : Source} {va : Word} (ha : SourceValue s a va) (K : Int → RefState) :
    refResolve a.mode.digit a.param.toInt s.toRef K = K va.toInt := by
  obtain ⟨hmode, rfl⟩ | ⟨hmode, hin, rfl⟩ := ha
  · simp [refResolve, hmode, Mode.digit]
  · simp only [refResolve, hmode, Mode.digit, toRef_mem_length, refCell_toRef_of_inRange hin]
    rw [if_neg (by decide), if_neg (not_not_intro hin)]

theorem refResolve_of_fault {s : State} {a : Source} (ha : SourceFaults s a) (K : Int → RefState) :
    refResolve a.mode.digit a.param.toInt s.toRef K = (raise (.addressFault a.param) s).toRef := by
  obtain ⟨hmode, hout⟩ := ha
  simp only [refResolve, hmode, Mode.digit, toRef_mem_length]
  rw [if_neg (by decide), if_pos hout]
  rfl

theorem refResolve_withSource {s : State} {a : Source} {K : Int → RefState} {k : Word → State}
    (h : ∀ va, K va.toInt = (k va).toRef) :
    refResolve a.mode.digit a.param.toInt s.toRef K = (withSource a s k).toRef := by
  obtain ⟨va, ha⟩ | ha := source_cases s a
  · rw [refResolve_of_value ha, withSource_of_value ha, h]
  · rw [refResolve_of_fault ha, withSource_of_fault ha]

/-- Two sources resolve alike on both sides, so the two steps agree if what follows agrees on the values found. -/
theorem refResolve_withSources {s : State} {a b : Source} {K : Int → Int → RefState} {k : Word → Word → State}
    (h : ∀ va vb, SourceValue s a va → SourceValue s b vb → K va.toInt vb.toInt = (k va vb).toRef) :
    (refResolve a.mode.digit a.param.toInt s.toRef fun x => refResolve b.mode.digit b.param.toInt s.toRef (K x)) =
      (withSources a b s k).toRef := by
  obtain ⟨va, vb, ha, hb, e⟩ | ⟨ha, e⟩ | ⟨va, ha, hb, e⟩ := withSources_cases a b s k
  · rw [e, refResolve_of_value ha, refResolve_of_value hb, h va vb ha hb]
  · rw [e, refResolve_of_fault ha]
  · rw [e, refResolve_of_value ha, refResolve_of_fault hb]

/-! ### The write and the input on the view -/

theorem refWriteAdvance_toRef {s : State} {len : Nat} (hm : s.mem.wf = true) (hc : s.WithinCapacity)
    (hpc : s.InRange s.pc) (hlen : len ≤ 4) (dst r : Word) :
    refWriteAdvance dst.toInt r.toInt len s.toRef = (storeResult dst r len s).toRef := by
  unfold refWriteAdvance
  rw [toRef_mem_length]
  by_cases hd : s.InRange dst
  · rw [if_neg (not_not_intro hd), storeResult_of_inRange hd,
      toRef_advance (s := { s with mem := s.mem.write (cellIndex dst) r }) hc hpc hlen, toRef_write hm]
  · rw [if_pos hd, storeResult_of_not_inRange hd]
    rfl

/-- A waiting core on the view: by what its source says next. -/
theorem refAwait_toRef {s : State} (hm : s.mem.wf = true) (hc : s.WithinCapacity) (hpc : s.InRange s.pc) (dst : Word) :
    refAwait dst.toInt s.toRef = (awaitInput dst s).toRef := by
  have hinput : s.toRef.input = s.input.map InputEvent.toRef := rfl
  match h : s.input with
  | [] =>
    rw [h] at hinput
    simp only [refAwait, hinput, awaitInput, h, List.map_nil]
  | .wait :: rest =>
    rw [h] at hinput
    simp only [refAwait, hinput, awaitInput, h, List.map_cons, InputEvent.toRef]
    rfl
  | .answer (.value v) :: rest =>
    rw [h] at hinput
    simp only [refAwait, hinput, awaitInput, h, List.map_cons, InputEvent.toRef, Answer.toRef]
    have hview := toRef_takeAnswer (.value v) rest { s with status := .running }
    have hwrite := refWriteAdvance_toRef (s := takeAnswer (.value v) rest { s with status := .running }) (len := 2)
      hm hc hpc (by decide) dst v
    rw [hview] at hwrite
    exact hwrite
  | .answer .abort :: rest =>
    rw [h] at hinput
    simp only [refAwait, hinput, awaitInput, h, List.map_cons, InputEvent.toRef, Answer.toRef]
    rw [toRef_raise, toRef_takeAnswer]
    rfl

/-! ### The word width -/

/-- In a step to `t` the machine of width `xlen` judges results as this core does: a word is a result of both, and if an
overflow ended the step, what is no word is a result of neither. -/
def WidthAgrees (xlen : Option Nat) (t : State) : Prop :=
  (∀ r, isWord r = true → refFits xlen r = true) ∧
  (t.status = .faulted → t.faultKind = .overflowFault → ∀ r, isWord r = false → refFits xlen r = false)

theorem refFits_64 (r : Int) : refFits (some 64) r = isWord r := rfl

theorem widthAgrees_64 (t : State) : WidthAgrees (some 64) t :=
  ⟨fun r h => (refFits_64 r).trans h, fun _ _ r h => (refFits_64 r).trans h⟩

/-! ### The effect on the view, after the parameters have been fetched (R76, R77) -/

/-- A three-parameter instruction on the view: what is left to compare is the result. -/
theorem refResolve_binary {s : State} {a b : Source} {dst : Word} {f : Word → Word → Except Trap Word}
    {K : Int → Int → RefState}
    (hok : ∀ va vb r, f va vb = .ok r → K va.toInt vb.toInt = (storeResult dst r 4 s).toRef)
    (htrap : ∀ va vb t, f va vb = .error t → binary f a b dst s = raise t s → K va.toInt vb.toInt = (raise t s).toRef) :
    (refResolve a.mode.digit a.param.toInt s.toRef fun x => refResolve b.mode.digit b.param.toInt s.toRef (K x)) =
      (binary f a b dst s).toRef := by
  rw [binary]
  refine refResolve_withSources fun va vb ha hb => ?_
  cases hf : f va vb with
  | ok r => exact hok va vb r hf
  | error t => exact htrap va vb t hf (binary_of_trap ha hb hf)

/-- The overflow check and then the write, for ADD and MUL. -/
def refStoreNarrowed (xlen : Option Nat) (op dst r : Int) (s : RefState) : RefState :=
  if refFits xlen r = false then refRaise .overflowFault op s else refWriteAdvance dst r 4 s

theorem refResolve_narrow {s : State} {a b : Source} {op dst : Word} {g : Int → Int → Int} {xlen : Option Nat}
    (hm : s.mem.wf = true) (hc : s.WithinCapacity) (hpc : s.InRange s.pc)
    (hx : WidthAgrees xlen (binary (fun va vb => narrow op (g va.toInt vb.toInt)) a b dst s)) :
    (refResolve a.mode.digit a.param.toInt s.toRef fun x => refResolve b.mode.digit b.param.toInt s.toRef fun y =>
        refStoreNarrowed xlen op.toInt dst.toInt (g x y) s.toRef) =
      (binary (fun va vb => narrow op (g va.toInt vb.toInt)) a b dst s).toRef := by
  obtain ⟨hfits, hover⟩ := hx
  refine refResolve_binary (fun va vb r hr => ?_) (fun va vb t ht hstep => ?_)
  · unfold narrow at hr
    split_ifs at hr with hword
    cases hr
    obtain ⟨hlo, hhi⟩ := isWord_iff.1 hword
    rw [refStoreNarrowed, if_neg (by simp [hfits _ hword]), ← refWriteAdvance_toRef hm hc hpc (le_refl 4),
      toInt_ofInt hlo hhi]
    rfl
  · unfold narrow at ht
    split_ifs at ht with hword
    cases ht
    rw [hstep] at hover
    rw [refStoreNarrowed, if_pos (hover rfl rfl _ (by simpa using hword))]
    rfl

theorem toInt_truthWord (p : Prop) [Decidable p] : (truthWord (decide p)).toInt = if p then 1 else 0 := by
  by_cases h : p <;> simp [truthWord, h]

theorem refResolve_truthWord {s : State} {a b : Source} {dst : Word} {p : Int → Int → Prop}
    [DecidableRel p] (hm : s.mem.wf = true) (hc : s.WithinCapacity) (hpc : s.InRange s.pc) :
    (refResolve a.mode.digit a.param.toInt s.toRef fun x => refResolve b.mode.digit b.param.toInt s.toRef fun y =>
        refWriteAdvance dst.toInt (if p x y then 1 else 0) 4 s.toRef) =
      (binary (fun va vb => .ok (truthWord (decide (p va.toInt vb.toInt)))) a b dst s).toRef := by
  refine refResolve_binary (fun va vb r hr => ?_) nofun
  cases hr
  rw [← toInt_truthWord]
  exact refWriteAdvance_toRef hm hc hpc (le_refl 4) dst _

theorem refResolve_jump {s : State} {a b : Source} {p : Int → Prop} [DecidablePred p] (hc : s.WithinCapacity)
    (hpc : s.InRange s.pc) :
    (refResolve a.mode.digit a.param.toInt s.toRef fun x => refResolve b.mode.digit b.param.toInt s.toRef fun y =>
        if p x then { s.toRef with pc := y } else { s.toRef with pc := s.toRef.pc + 3 }) =
      (jump (fun va => decide (p va.toInt)) a b s).toRef := by
  rw [jump]
  refine refResolve_withSources fun va vb _ _ => ?_
  by_cases h : p va.toInt
  · rw [if_pos h, if_pos (decide_eq_true h)]
    rfl
  · rw [if_neg h, if_neg (by simpa using h), toRef_advance hc hpc (by decide)]
    rfl

theorem refCell_one_parameter {s : State} {w p : Word} {ps : List Word} (h : HoldsAtPc s (w :: p :: ps)) :
    refCell s.toRef (s.toRef.pc + 1) = p.toInt :=
  refCell_toRef_pc_add h (k := 1) (by simp)

theorem refCell_two_parameters {s : State} {w p q : Word} {ps : List Word} (h : HoldsAtPc s (w :: p :: q :: ps)) :
    refCell s.toRef (s.toRef.pc + 1) = p.toInt ∧ refCell s.toRef (s.toRef.pc + 2) = q.toInt :=
  ⟨refCell_one_parameter h, refCell_toRef_pc_add h (k := 2) (by simp)⟩

theorem refCell_three_parameters {s : State} {w p q d : Word} (h : HoldsAtPc s [w, p, q, d]) :
    refCell s.toRef (s.toRef.pc + 1) = p.toInt ∧ refCell s.toRef (s.toRef.pc + 2) = q.toInt ∧
      refCell s.toRef (s.toRef.pc + 3) = d.toInt :=
  have ⟨hp, hq⟩ := refCell_two_parameters h
  ⟨hp, hq, refCell_toRef_pc_add h (k := 3) (by simp)⟩

theorem refAwait_requestInput {s : State} (hm : s.mem.wf = true) (hc : s.WithinCapacity) (hpc : s.InRange s.pc)
    (dst : Word) :
    refAwait dst.toInt { s.toRef with status := .waitInput, trace := s.toRef.trace ++ [.request] } =
      (awaitInput dst (requestInput s)).toRef := by
  rw [← toRef_requestInput]
  exact refAwait_toRef (s := requestInput s) hm hc hpc dst

theorem refResolve_output {s : State} {a : Source} (hc : s.WithinCapacity) (hpc : s.InRange s.pc) :
    (refResolve a.mode.digit a.param.toInt s.toRef fun x =>
        { s.toRef with trace := s.toRef.trace ++ [.emit x], pc := s.toRef.pc + 2 }) =
      (withSource a s fun va => advance 2 (emit va s)).toRef := by
  refine refResolve_withSource fun va => ?_
  rw [toRef_advance (s := emit va s) hc hpc (by decide), toRef_emit]
  rfl

/-- The nine arms of R79's `case` against the nine of `exec`, for an instruction whose cells stand at the pc.  In each the
opcode is a numeral, so the arm taken is found by evaluation. -/
theorem refEffect_toRef {s t : State} {i : Instr} {xlen : Option Nat} (hm : s.mem.wf = true) (hc : s.WithinCapacity)
    (hi : HoldsAtPc s (encode i)) (hexec : exec i s = .next t) (hx : WidthAgrees xlen t) :
    refEffect xlen i.fields.opcode i.fields.ma i.fields.mb s.toRef = t.toRef := by
  have hpc : s.InRange s.pc := inRange_pc_of_holdsAtPc hi (by cases i <;> nofun)
  cases i with
  | add a b md dst =>
    obtain ⟨h1, h2, h3⟩ := refCell_three_parameters hi
    cases hexec
    simp only [refEffect, Instr.fields, h1, h2, h3]
    exact refResolve_narrow (op := 1#64) (g := (· + ·)) hm hc hpc hx
  | mul a b md dst =>
    obtain ⟨h1, h2, h3⟩ := refCell_three_parameters hi
    cases hexec
    simp only [refEffect, Instr.fields, h1, h2, h3]
    exact refResolve_narrow (op := 2#64) (g := (· * ·)) hm hc hpc hx
  | input ma mb md dst =>
    have h1 := refCell_one_parameter hi
    cases hexec
    simp only [refEffect, Instr.fields, h1]
    exact refAwait_requestInput hm hc hpc dst
  | output a mb md =>
    have h1 := refCell_one_parameter hi
    cases hexec
    simp only [refEffect, Instr.fields, h1]
    exact refResolve_output hc hpc
  | jumpIfTrue a b md =>
    obtain ⟨h1, h2⟩ := refCell_two_parameters hi
    cases hexec
    simp only [refEffect, Instr.fields, h1, h2]
    exact refResolve_jump (p := (0 < ·)) hc hpc
  | jumpIfFalse a b md =>
    obtain ⟨h1, h2⟩ := refCell_two_parameters hi
    cases hexec
    simp only [refEffect, Instr.fields, h1, h2]
    exact refResolve_jump (p := (· = 0)) hc hpc
  | lessThan a b md dst =>
    obtain ⟨h1, h2, h3⟩ := refCell_three_parameters hi
    cases hexec
    simp only [refEffect, Instr.fields, h1, h2, h3]
    exact refResolve_truthWord (p := (· < ·)) hm hc hpc
  | equals a b md dst =>
    obtain ⟨h1, h2, h3⟩ := refCell_three_parameters hi
    cases hexec
    simp only [refEffect, Instr.fields, h1, h2, h3]
    exact refResolve_truthWord (p := (· = ·)) hm hc hpc
  | halt ma mb md =>
    cases hexec
    rfl

/-! ### The phases before the effect, on the view (R71 to R75) -/

theorem refRunning_of_not_inRange {s : State} (h : ¬ s.InRange s.pc) (xlen : Option Nat) :
    refRunning xlen s.toRef = (fallOffEnd s).toRef := by
  rw [refRunning, if_pos (mt toRef_pc_inRange.1 h)]
  rfl

theorem refCell_toRef_pc {s : State} {w : Word} (hr : memRead s s.pc = .ok w) :
    refCell s.toRef s.toRef.pc = w.toInt := by
  obtain ⟨hpc, rfl⟩ := memRead_ok_iff.1 hr
  exact refCell_toRef_of_inRange hpc

theorem refRunning_of_decodeFault {s : State} {w : Word} (hr : memRead s s.pc = .ok w) (hw : classify w = .decodeFault)
    (xlen : Option Nat) : refRunning xlen s.toRef = (raise (.decodeFault w) s).toRef := by
  have hpc := toRef_pc_inRange.2 (memRead_ok_iff.1 hr).1
  rw [classify_eq_decodeFault_iff_toInt] at hw
  rw [refRunning, if_neg (not_not_intro hpc), refCell_toRef_pc hr]
  by_cases hrange : w.toInt < 0 ∨ w.toInt > 99999
  · rw [if_pos hrange]
    rfl
  · rw [if_neg hrange, if_pos (by omega)]
    rfl

/-- What R79's listing does after the opcode lookup: the parameter fetch and the effect of the word `w`. -/
def refFetchParameters (xlen : Option Nat) (w : Int) (s : RefState) : RefState :=
  match (List.range' 1 (refArity (w % 100))).find? fun i : Nat => decide (s.pc + i ≥ s.mem.length) with
  | some i => refRaise .addressFault (s.pc + i) s
  | none => refEffect xlen (w % 100) (w / 100 % 10) (w / 1000 % 10) s

/-- A word that passes the decoder goes on to the opcode lookup. -/
theorem refRunning_of_passed_decoder {s : State} {w : Word} (hr : memRead s s.pc = .ok w)
    (hw : classify w ≠ .decodeFault) (xlen : Option Nat) :
    refRunning xlen s.toRef =
      if w.toInt % 100 ∉ ([1, 2, 3, 4, 5, 6, 7, 8, 99] : List Int) then refRaise .unknownOpcode w.toInt s.toRef
      else refFetchParameters xlen w.toInt s.toRef := by
  have hpc := toRef_pc_inRange.2 (memRead_ok_iff.1 hr).1
  rw [ne_eq, classify_eq_decodeFault_iff_toInt] at hw
  rw [refRunning, if_neg (not_not_intro hpc), refCell_toRef_pc hr, if_neg (by omega), if_neg (by omega)]
  rfl

theorem not_mem_of_classify_eq_unknownOpcode {w : Word} (hw : classify w = .unknownOpcode) :
    w.toInt % 100 ∉ ([1, 2, 3, 4, 5, 6, 7, 8, 99] : List Int) := by
  obtain ⟨⟨h0, -⟩, hop⟩ := classify_eq_unknownOpcode_iff.1 hw
  intro hm
  simp only [knownOpcodes, List.mem_cons, List.not_mem_nil, or_false] at hop hm
  omega

theorem refRunning_of_unknownOpcode {s : State} {w : Word} (hr : memRead s s.pc = .ok w)
    (hw : classify w = .unknownOpcode) (xlen : Option Nat) :
    refRunning xlen s.toRef = (raise (.unknownOpcode w) s).toRef := by
  rw [refRunning_of_passed_decoder hr (by simp [hw]), if_pos (not_mem_of_classify_eq_unknownOpcode hw)]
  rfl

theorem number_mem_opcodes (op : Opcode) : (op.number : Int) ∈ ([1, 2, 3, 4, 5, 6, 7, 8, 99] : List Int) := by
  cases op <;> decide

theorem refArity_number (op : Opcode) : refArity op.number = op.arity := by cases op <;> rfl

theorem toInt_mod_of_valid {w : Word} {op : Opcode} {ma mb md : Mode} (hw : classify w = .valid op ma mb md) :
    w.toInt % 100 = op.number := by
  obtain ⟨-, hop, -⟩ := digitsOf_encodeWord op ma mb md
  rw [classify_eq_valid_iff_eq_encodeWord.1 hw, hop]

theorem refRunning_of_valid {s : State} {w : Word} {op : Opcode} {ma mb md : Mode} (hr : memRead s s.pc = .ok w)
    (hw : classify w = .valid op ma mb md) (xlen : Option Nat) :
    refRunning xlen s.toRef = refFetchParameters xlen w.toInt s.toRef := by
  have hop := number_mem_opcodes op
  rw [← toInt_mod_of_valid hw] at hop
  rw [refRunning_of_passed_decoder hr (by simp [hw]), if_neg (not_not_intro hop)]

theorem toRef_missing_iff {s : State} {j : Nat} :
    s.toRef.pc + j ≥ s.toRef.mem.length ↔ (s.size : Int) ≤ s.pc.toInt + j := by
  rw [toRef_mem_length]
  rfl

theorem toRef_not_missing {s : State} {j : Nat} (h : s.pc.toInt + j < s.size) :
    (!decide (s.toRef.pc + j ≥ s.toRef.mem.length)) = true := by
  rw [Bool.not_eq_true', decide_eq_false_iff_not, toRef_missing_iff]
  exact not_le_of_gt h

theorem refRunning_of_missing_parameter {s : State} {w : Word} {op : Opcode} {ma mb md : Mode} {i : Nat}
    (hc : s.WithinCapacity) (hr : memRead s s.pc = .ok w) (hw : classify w = .valid op ma mb md) (h1 : 1 ≤ i)
    (hi : i ≤ op.arity) (hmissing : (s.size : Int) ≤ s.pc.toInt + i) (hfirst : s.pc.toInt + (i - 1) < s.size)
    (xlen : Option Nat) :
    refRunning xlen s.toRef = (raise (.addressFault (s.pc + BitVec.ofNat 64 i)) s).toRef := by
  have hfind : (List.range' 1 (refArity (w.toInt % 100))).find?
      (fun j : Nat => decide (s.toRef.pc + j ≥ s.toRef.mem.length)) = some i := by
    rw [toInt_mod_of_valid hw, refArity_number, List.find?_range'_eq_some]
    exact ⟨decide_eq_true (toRef_missing_iff.2 hmissing), List.mem_range'_1.2 (by omega),
      fun j _ hj => toRef_not_missing (by omega)⟩
  have hexact := toInt_pc_add hc (memRead_ok_iff.1 hr).1 (hi.trans (op.arity_le.trans (by decide)))
  rw [refRunning_of_valid hr hw, refFetchParameters, hfind, toRef_raise, Trap.info, hexact]
  rfl

theorem refRunning_of_all_parameters {s : State} {w : Word} {op : Opcode} {ma mb md : Mode}
    (hr : memRead s s.pc = .ok w) (hw : classify w = .valid op ma mb md) (hall : s.pc.toInt + op.arity < s.size)
    (xlen : Option Nat) : refRunning xlen s.toRef =
      refEffect xlen (w.toInt % 100) (w.toInt / 100 % 10) (w.toInt / 1000 % 10) s.toRef := by
  have hfind : (List.range' 1 (refArity (w.toInt % 100))).find?
      (fun j : Nat => decide (s.toRef.pc + j ≥ s.toRef.mem.length)) = none := by
    rw [toInt_mod_of_valid hw, refArity_number, List.find?_range'_eq_none]
    exact fun j _ hj => toRef_not_missing (by omega)
  rw [refRunning_of_valid hr hw, refFetchParameters, hfind]

/-! ### The step on the view -/

/-- A running core steps as R79's listing says, phase by phase. -/
theorem refRunning_toRef {s t : State} {xlen : Option Nat} (hm : s.mem.wf = true) (hc : s.WithinCapacity)
    (hs : s.status = .running) (hstep : step s = .next t) (hx : WidthAgrees xlen t) :
    refRunning xlen s.toRef = t.toRef := by
  by_cases hpc : s.InRange s.pc
  · have hr := memRead_of_inRange hpc
    cases hw : classify (s.mem.read (cellIndex s.pc)) with
    | decodeFault =>
      cases (step_of_trap hs (fetch_of_decodeFault hr hw)).symm.trans hstep
      exact refRunning_of_decodeFault hr hw xlen
    | unknownOpcode =>
      cases (step_of_trap hs (fetch_of_unknownOpcode hr hw)).symm.trans hstep
      exact refRunning_of_unknownOpcode hr hw xlen
    | valid op ma mb md =>
      by_cases hall : s.pc.toInt + op.arity < s.size
      · obtain ⟨i, hfetch, hencode⟩ := fetch_of_all_parameters hr hw hall
        obtain ⟨w, ps, hword, -, hop, ha, hb, -⟩ := encode_eq_word_cons i
        obtain ⟨rfl, -⟩ := List.cons.inj (hword.symm.trans hencode)
        rw [refRunning_of_all_parameters hr hw hall, hop, ha, hb]
        exact refEffect_toRef hm hc (holdsAtPc_of_fetch hfetch) ((step_of_instr hs hfetch).symm.trans hstep) hx
      · obtain ⟨i, h1, hi, hmissing, hfirst⟩ := exists_first_missing_parameter hpc hall
        have hfetch := fetch_of_missing_parameter hr hw h1 hi hmissing hfirst
        cases (step_of_trap hs hfetch).symm.trans hstep
        exact refRunning_of_missing_parameter hc hr hw h1 hi hmissing hfirst xlen
  · cases (step_of_not_inRange hs hpc).symm.trans hstep
    exact refRunning_of_not_inRange hpc xlen

theorem refStep_of_running {s : RefState} (h : s.status = .running) (xlen : Option Nat) :
    refStep xlen s = refRunning xlen s := by
  simp only [refStep, h]

theorem refStep_of_waitInput {s : RefState} (h : s.status = .waitInput) (xlen : Option Nat) :
    refStep xlen s = refAwait (refCell s (s.pc + 1)) s := by
  simp only [refStep, h]

theorem refStep_of_terminal {s : RefState} (h : s.status.terminal = true) (xlen : Option Nat) :
    refStep xlen s = s := by
  obtain h | h | h := Status.terminal_iff.1 h <;> simp only [refStep, h]

/-- A step is the reference's step of any width that agrees with the core's on what the step of a running core does. -/
theorem refStep_toRef {s t : State} {xlen : Option Nat} (hm : s.mem.wf = true) (hc : s.WithinCapacity)
    (hfits : s.PcFitsStatus) (hstep : step s = .next t) (hx : s.status = .running → WidthAgrees xlen t) :
    refStep xlen s.toRef = t.toRef := by
  cases hterm : s.status.terminal with
  | true =>
    cases (step_of_terminal hterm).symm.trans hstep
    exact refStep_of_terminal (s := s.toRef) hterm xlen
  | false =>
    obtain hs | hs := Status.terminal_eq_false_iff.1 hterm
    · rw [refStep_of_running (s := s.toRef) hs]
      exact refRunning_toRef hm hc hs hstep (hx hs)
    · obtain ⟨hwait, -⟩ := hfits
      obtain ⟨ma, mb, md, dst, hfetch⟩ := hwait hs
      have hdst := refCell_one_parameter (holdsAtPc_of_fetch hfetch)
      cases (step_of_waitInput hs).symm.trans hstep
      rw [refStep_of_waitInput (s := s.toRef) hs, hdst, resumeInput_of_fetch hc hfetch]
      exact refAwait_toRef hm hc (decode_of_fetch hfetch).1 dst

/-- Settles O44: the commuting square of `State.toRef` with the two steps, at the width of this core's words. -/
theorem stepIsTheStepOfTheSpec : Obligations.StepIsTheStepOfTheSpec := by
  rintro s t ⟨hm, -⟩ hc hfits hstep
  exact refStep_toRef hm hc hfits hstep fun _ => widthAgrees_64 t

end Sys2Proof.Machine
end

section
/-! SUPPORT. The conditional jumps (spec/43_jumps.md): the target operand of a jump not taken (R113) and where a taken jump
goes (R112). -/

namespace Sys2Proof.Machine

/-! ### The target operand is resolved whether or not the jump is taken (R113) -/

/-- The first of the words that stand at the pc is what a data read of the pc answers, whatever the capacity. -/
theorem memRead_pc_of_holdsAtPc {s : State} {w : Word} {ws : List Word} (h : HoldsAtPc s (w :: ws)) :
    memRead s s.pc = .ok w := by
  have hpc := inRange_pc_of_holdsAtPc h (List.cons_ne_nil w ws)
  obtain ⟨-, hcells⟩ := h
  exact memRead_ok_iff.2 ⟨hpc, (hcells 0 (Nat.zero_lt_succ _)).2⟩

/-- When memory ends after the first parameter cell of a jump, the fetch reports the second one (R75). -/
theorem fetch_of_jump_without_target {s : State} {op : Opcode} {ma mb md : Mode} {p : Word}
    (hop : op = .jumpIfTrue ∨ op = .jumpIfFalse) (h : HoldsAtPc s [encodeWord op ma mb md, p])
    (hend : s.pc.toInt + 2 = s.size) : fetch s = .trap (.addressFault (s.pc + 2#64)) := by
  have harity : op.arity = 2 := by obtain rfl | rfl := hop <;> rfl
  exact fetch_of_missing_parameter (i := 2) (memRead_pc_of_holdsAtPc h) (classify_eq_valid_iff_eq_encodeWord.2 rfl)
    (by decide) harity.ge (by omega) (by omega)

/-- Settles O24: the sources are resolved, and before them the parameter cells fetched, whatever the tested value is. -/
theorem notTakenJumpStillResolvesItsTarget : Obligations.NotTakenJumpStillResolvesItsTarget := by
  intro s a p2 va md ha hp2
  have htarget : SourceFaults s ⟨.position, p2⟩ := ⟨rfl, hp2⟩
  exact ⟨fun _ => ⟨_, exec_jumpIfTrue a _ md s, abortedWith_withSources_right ha htarget _⟩,
    fun _ => ⟨_, exec_jumpIfFalse a _ md s, abortedWith_withSources_right ha htarget _⟩,
    fun _ _ _ hop hs hcells hend => exists_abortedWith_of_trap hs (fetch_of_jump_without_target hop hcells hend)⟩

/-! ### The target of a taken jump (R112) -/

theorem jump_of_taken {c : Word → Bool} {a b : Source} {s : State} {va vb : Word} (ha : SourceValue s a va)
    (hb : SourceValue s b vb) (hc : c va = true) : jump c a b s = setPc vb s := by
  rw [jump, withSources_of_values ha hb, if_pos hc]

/-- Both jumps, when taken, do the same. -/
theorem exec_of_taken_jump {s : State} {i : Instr} {a b : Source} {md : Mode} {va vb : Word} (ha : SourceValue s a va)
    (hb : SourceValue s b vb)
    (h : i = .jumpIfTrue a b md ∧ 0 < va.toInt ∨ i = .jumpIfFalse a b md ∧ va.toInt = 0) :
    exec i s = .next (setPc vb s) := by
  obtain ⟨rfl, hpos⟩ | ⟨rfl, hzero⟩ := h
  · rw [exec_jumpIfTrue, jump_of_taken ha hb (decide_eq_true hpos)]
  · rw [exec_jumpIfFalse, jump_of_taken ha hb (decide_eq_true hzero)]

/-- Settles O27: a taken jump sets the pc alone, and the target's range is checked by the next step only. -/
theorem takenJumpGoesToItsTargetWhateverItIs : Obligations.TakenJumpGoesToItsTargetWhateverItIs := by
  intro s i a b md va vb hs ha hb hi
  refine ⟨setPc vb s, exec_of_taken_jump ha hb hi, hs, rfl, rfl, rfl, fun hin => ?_, fun hout => ?_⟩
  · exact getElem?_fetchCells (s := setPc vb s) (k := 0) (by decide) (cellIndex_lt hin)
  · exact ⟨_, step_of_not_inRange (s := setPc vb s) hs hout, rfl, rfl, rfl, rfl⟩

end Sys2Proof.Machine
end

section
/-! SUPPORT. A three-parameter instruction that completes (spec/40_step.md R77), and the comparisons among them
(spec/44_compare.md). -/

namespace Sys2Proof.Machine

/-! ### The single write of a completed instruction (R42, R77) -/

/-- An in-range write reads back, moves the pc by the instruction's length and leaves everything else as it was. -/
theorem storeResult_frame {s : State} {dst : Word} (hm : s.mem.wf = true) (hd : s.InRange dst) (r : Word) (len : Nat) :
    memRead (storeResult dst r len s) dst = .ok r ∧ (storeResult dst r len s).pc = s.pc + BitVec.ofNat 64 len ∧
      CellsKeptBut dst s (storeResult dst r len s) ∧ ControlKept s (storeResult dst r len s) ∧
      PortsKept s (storeResult dst r len s) := by
  rw [storeResult_of_inRange hd]
  exact ⟨memRead_write_same hm hd, rfl, fun _ => memRead_write_other hm hd, ⟨rfl, rfl, rfl, rfl, rfl⟩, rfl, rfl⟩

/-- With both sources resolved, a result that does not trap and a destination in range, the instruction completes. -/
theorem binary_frame {s : State} {a b : Source} {va vb r dst : Word} {f : Word → Word → Except Trap Word}
    (hm : s.mem.wf = true) (ha : SourceValue s a va) (hb : SourceValue s b vb) (hf : f va vb = .ok r)
    (hd : s.InRange dst) :
    memRead (binary f a b dst s) dst = .ok r ∧ (binary f a b dst s).pc = s.pc + 4#64 ∧
      CellsKeptBut dst s (binary f a b dst s) ∧ ControlKept s (binary f a b dst s) ∧
      PortsKept s (binary f a b dst s) := by
  rw [binary_of_values ha hb hf]
  exact storeResult_frame hm hd r 4

/-! ### The results of the comparisons (R122) -/

theorem truthWord_decide (p : Prop) [Decidable p] : truthWord (decide p) = if p then 1#64 else 0#64 := by
  simp only [truthWord, decide_eq_true_eq]

theorem lessThanOf_eq (va vb : Word) : lessThanOf va vb = .ok (if va.toInt < vb.toInt then 1#64 else 0#64) :=
  congrArg Except.ok (truthWord_decide _)

theorem equalsOf_eq (va vb : Word) : equalsOf va vb = .ok (if va.toInt = vb.toInt then 1#64 else 0#64) :=
  congrArg Except.ok (truthWord_decide _)

/-- Settles O22: neither comparison traps, so both instructions complete with the truth word of their condition. -/
theorem comparisonsStoreOneOrZero : Obligations.ComparisonsStoreOneOrZero := by
  intro s a b md va vb dst hm ha hb hd
  exact ⟨⟨_, exec_lessThan a b md dst s, binary_frame hm ha hb (lessThanOf_eq va vb) hd⟩,
    ⟨_, exec_equals a b md dst s, binary_frame hm ha hb (equalsOf_eq va vb) hd⟩⟩

end Sys2Proof.Machine
end

section
/-! SUPPORT. Faults (spec/60_exceptions.md): the overflow of ADD and MUL (R144), the abort of the input source (R145), and
what entering FAULTED changes (R148). -/

namespace Sys2Proof.Machine

/-! ### A result that is not a word (R144) -/

/-- A result that traps aborts the instruction before its destination is checked. -/
theorem abortedWith_binary_of_trap {s : State} {a b : Source} {va vb : Word} {t : Trap}
    {f : Word → Word → Except Trap Word} (ha : SourceValue s a va) (hb : SourceValue s b vb)
    (hf : f va vb = .error t) (dst : Word) :
    AbortedWith t.kind t.info s (binary f a b dst s) ∧ PortsKept s (binary f a b dst s) := by
  rw [binary_of_trap ha hb hf]
  exact abortedWith_raise t s

theorem sumOf_of_overflow {va vb : Word} (h : va.toInt + vb.toInt < wmin ∨ wmax < va.toInt + vb.toInt) :
    sumOf va vb = .error (.overflowFault 1#64) :=
  narrow_of_overflow h

theorem productOf_of_overflow {va vb : Word} (h : va.toInt * vb.toInt < wmin ∨ wmax < va.toInt * vb.toInt) :
    productOf va vb = .error (.overflowFault 2#64) :=
  narrow_of_overflow h

/-- Settles O21: the exact result does not narrow to a word, and that is the trap of both instructions. -/
theorem resultOutsideTheWordRangeRaisesOverflowFault : Obligations.ResultOutsideTheWordRangeRaisesOverflowFault := by
  refine fun s a b md va vb dst ha hb => ⟨fun h => ⟨_, exec_add a b md dst s, ?_⟩, fun h => ⟨_, exec_mul a b md dst s, ?_⟩⟩
  · exact abortedWith_binary_of_trap ha hb (sumOf_of_overflow h) dst
  · exact abortedWith_binary_of_trap ha hb (productOf_of_overflow h) dst

/-! ### An abort by the input source (R145) -/

/-- A core that hears an abort takes it and faults, whatever its destination is. -/
theorem abortedWith_awaitInput_of_abort {s : State} {rest : List (InputEvent Word)}
    (h : s.input = .answer .abort :: rest) (dst : Word) :
    AbortedWith .inputAbort 0#64 s (awaitInput dst s) ∧ (awaitInput dst s).input = rest ∧
      (awaitInput dst s).trace = s.trace ++ [.answer .abort] := by
  rw [awaitInput_of_abort h]
  exact ⟨⟨rfl, rfl, rfl, rfl, rfl, rfl, rfl⟩, rfl, rfl⟩

theorem resumeInput_of_memRead {s : State} {dst : Word} (h : memRead s (s.pc + 1#64) = .ok dst) :
    resumeInput s = awaitInput dst s := by
  simp only [resumeInput, h]

/-- A request leaves what an abort is measured against as it was. -/
theorem abortedWith_requestInput_iff {f : FaultKind} {info : Word} {s t : State} :
    AbortedWith f info (requestInput s) t ↔ AbortedWith f info s t := by
  simp only [AbortedWith, requestInput_mem, requestInput_size, requestInput_pc]

/-- Settles O31: an IN that asks just now is a core waiting after its request. -/
theorem abortOfTheSourceRaisesInputAbort : Obligations.AbortOfTheSourceRaisesInputAbort := by
  refine fun s rest h => ⟨fun ma mb md dst => ?_, fun dst hs hdst => ?_⟩
  · obtain ⟨habort, hinput, htrace⟩ := abortedWith_awaitInput_of_abort (s := requestInput s) h dst
    refine ⟨_, exec_input ma mb md dst s, abortedWith_requestInput_iff.1 habort, hinput, ?_⟩
    rw [htrace, requestInput_trace, List.append_assoc, List.singleton_append]
  · refine ⟨_, step_of_waitInput hs, ?_⟩
    rw [resumeInput_of_memRead hdst]
    exact abortedWith_awaitInput_of_abort h dst

/-! ### Entering FAULTED (R148) -/

@[simp] theorem outputSequence_raise (t : Trap) (s : State) : (raise t s).outputSequence = s.outputSequence := rfl

@[simp] theorem outputSequence_requestInput (s : State) : (requestInput s).outputSequence = s.outputSequence := by
  simp [State.outputSequence, PortEvent.emitted?]

@[simp] theorem outputSequence_takeAnswer (a : Answer Word) (rest : List (InputEvent Word)) (s : State) :
    (takeAnswer a rest s).outputSequence = s.outputSequence := by
  simp [State.outputSequence, PortEvent.emitted?]

/-- `t` reports a fault at the pc of `s`; its memory, its pc and the words emitted are those of `s`. -/
def PreciseFault (s t : State) : Prop :=
  t.faultKind ≠ .none ∧ AbortedWith t.faultKind t.faultInfo s t ∧ t.outputSequence = s.outputSequence

theorem preciseFault_raise (t : Trap) (s : State) : PreciseFault s (raise t s) :=
  ⟨t.kind_ne_none, (abortedWith_raise t s).1, outputSequence_raise t s⟩

/-- A fault may be raised after an answer was taken (R102): that is no word emitted. -/
theorem preciseFault_raise_takeAnswer (t : Trap) (a : Answer Word) (rest : List (InputEvent Word)) (s : State) :
    PreciseFault s (raise t (takeAnswer a rest s)) :=
  ⟨t.kind_ne_none, ⟨rfl, rfl, rfl, rfl, rfl, rfl, rfl⟩, outputSequence_takeAnswer a rest s⟩

theorem preciseFault_requestInput_iff {s t : State} : PreciseFault (requestInput s) t ↔ PreciseFault s t := by
  simp only [PreciseFault, abortedWith_requestInput_iff, outputSequence_requestInput]

theorem awaitInput_preciseFault {s : State} {dst : Word} (hs : s.status ≠ .faulted)
    (ht : (awaitInput dst s).status = .faulted) : PreciseFault s (awaitInput dst s) := by
  obtain ⟨-, e⟩ | ⟨v, rest, -, -, e⟩ | ⟨v, rest, -, -, e⟩ | ⟨rest, -, e⟩ := awaitInput_cases dst s <;> rw [e] at ht ⊢
  · exact absurd ht hs
  · exact nomatch ht
  · exact preciseFault_raise_takeAnswer _ _ rest s
  · exact preciseFault_raise_takeAnswer _ _ rest s

theorem resumeInput_preciseFault {s : State} (hs : s.status ≠ .faulted) (ht : (resumeInput s).status = .faulted) :
    PreciseFault s (resumeInput s) := by
  obtain ⟨dst, -, e⟩ | ⟨-, e⟩ := resumeInput_cases s <;> rw [e] at ht ⊢
  · exact awaitInput_preciseFault hs ht
  · exact preciseFault_raise _ s

theorem Effect.preciseFault {i : Instr} {s t : State} (he : Effect i s t) (hs : s.status ≠ .faulted)
    (ht : t.status = .faulted) : PreciseFault s t := by
  cases he with
  | raised t => exact preciseFault_raise t s
  | stored => exact absurd ht hs
  | jumped => exact absurd ht hs
  | emitted => exact absurd ht hs
  | halted => exact nomatch ht
  | asked => exact preciseFault_requestInput_iff.1 (awaitInput_preciseFault nofun ht)

/-- Settles O37: whatever enters FAULTED raises a fault, where at most a request was made and an answer taken before. -/
theorem faultsAreEnteredPrecisely : Obligations.FaultsAreEnteredPrecisely := by
  intro s t hstep hs ht
  obtain ⟨-, -, e⟩ | ⟨_, -, -, -, e⟩ | ⟨i, -, -, -, e⟩ | ⟨-, e⟩ | ⟨-, e⟩ := step_cases s
  · cases e.symm.trans hstep
    exact nomatch ht
  · cases e.symm.trans hstep
    exact preciseFault_raise _ s
  · obtain ⟨u, hu, he⟩ := exec_cases i s
    cases hu.symm.trans (e.symm.trans hstep)
    exact he.preciseFault hs ht
  · cases e.symm.trans hstep
    exact resumeInput_preciseFault hs ht
  · cases e.symm.trans hstep
    exact absurd ht hs

end Sys2Proof.Machine
end

section
/-! SUPPORT. The ends of a run (spec/70_reset_and_hazards.md R175) and a launch (R170). -/

namespace Sys2Proof.Machine

/-! ### The ends of a run (R175) -/

/-- The statuses one step can lead to from a state whose run has not ended, each with what leads to it. -/
inductive NextStatus (s : State) : Status → Prop where
  | running : NextStatus s .running
  | waiting (hs : s.status = .waitInput) : NextStatus s .waitInput
  | asked (ma mb md : Mode) (dst : Word) (hf : fetch s = .instr (.input ma mb md dst)) : NextStatus s .waitInput
  | halted (hs : s.status = .running) (ma mb md : Mode) (hf : fetch s = .instr (.halt ma mb md)) : NextStatus s .halted
  | offEnd (hs : s.status = .running) (hpc : ¬ s.InRange s.pc) : NextStatus s .offEnd
  | faulted : NextStatus s .faulted

/-- A core that waits for an answer waits on, runs again, or faults. -/
theorem awaitInput_status {s : State} (hs : s.status = .waitInput) (dst : Word) :
    (awaitInput dst s).status = .waitInput ∨ (awaitInput dst s).status = .running ∨
      (awaitInput dst s).status = .faulted := by
  obtain ⟨-, e⟩ | ⟨v, rest, -, -, e⟩ | ⟨v, rest, -, -, e⟩ | ⟨rest, -, e⟩ := awaitInput_cases dst s <;> rw [e]
  · exact .inl hs
  · exact .inr (.inl rfl)
  · exact .inr (.inr rfl)
  · exact .inr (.inr rfl)

theorem resumeInput_nextStatus {s : State} (hs : s.status = .waitInput) : NextStatus s (resumeInput s).status := by
  obtain ⟨dst, -, e⟩ | ⟨-, e⟩ := resumeInput_cases s <;> rw [e]
  · obtain ht | ht | ht := awaitInput_status hs dst <;> rw [ht]
    · exact .waiting hs
    · exact .running
    · exact .faulted
  · exact .faulted

theorem Effect.nextStatus {i : Instr} {s t : State} (he : Effect i s t) (hs : s.status = .running)
    (hf : fetch s = .instr i) : NextStatus s t.status := by
  have keeps {u : State} (hu : u.status = s.status) : NextStatus s u.status := hu.trans hs ▸ .running
  cases he with
  | raised => exact .faulted
  | stored => exact keeps rfl
  | jumped => exact keeps rfl
  | emitted => exact keeps rfl
  | halted ma mb md hi => exact .halted hs ma mb md (hi ▸ hf)
  | asked ma mb md dst hi =>
    obtain ht | ht | ht := awaitInput_status (requestInput_status s) dst <;> rw [ht]
    · exact .asked ma mb md dst (hi ▸ hf)
    · exact .running
    · exact .faulted

/-- The one inversion of a step by the status it leads to. -/
theorem step_nextStatus {s t : State} (hstep : step s = .next t) (hs : s.status.terminal = false) :
    NextStatus s t.status := by
  obtain ⟨hr, hpc, e⟩ | ⟨_, -, -, -, e⟩ | ⟨i, hr, -, hf, e⟩ | ⟨hw, e⟩ | ⟨hend, -⟩ := step_cases s
  · cases e.symm.trans hstep
    exact .offEnd hr hpc
  · cases e.symm.trans hstep
    exact .faulted
  · obtain ⟨u, hu, he⟩ := exec_cases i s
    cases hu.symm.trans (e.symm.trans hstep)
    exact he.nextStatus hr hf
  · cases e.symm.trans hstep
    exact resumeInput_nextStatus hw
  · simp [hs] at hend

/-- Settles O38: each new status has one way to it; that the report is at the pc is what every fault does (R148). -/
theorem endsAreReachedOnlyAsTheSpecSays : Obligations.EndsAreReachedOnlyAsTheSpecSays := by
  intro s t hstep hlive
  have hs : s.status.terminal = false := Status.terminal_eq_false_iff.2 hlive
  have hnext : NextStatus s t.status := step_nextStatus hstep hs
  refine ⟨fun ht => ?_, fun ht => ?_, fun ht => ?_, fun ht hr => ?_⟩
  · rw [ht] at hnext
    cases hnext with
    | halted hr ma mb md hf => exact ⟨hr, ma, mb, md, hf⟩
  · rw [ht] at hnext
    cases hnext with
    | offEnd hr hpc => exact ⟨hr, hpc⟩
  · have hnot : s.status ≠ .faulted := by
      intro h
      simp [h, Status.terminal] at hs
    obtain ⟨hkind, ⟨-, -, hpc, -⟩, -⟩ := faultsAreEnteredPrecisely s t hstep hnot ht
    exact ⟨hkind, hpc⟩
  · rw [ht] at hnext
    cases hnext with
    | waiting hw => cases hr.symm.trans hw
    | asked ma mb md dst hf => exact ⟨ma, mb, md, dst, hf⟩

/-! ### A launch (R170) -/

/-- A launch after an ended run, of words that fit, is accepted. -/
theorem launchWithin_of_fits {cap : Nat} {s : State} {program : List Int} {startPc : Option Int}
    (source : List (InputEvent Word)) (hs : s.status.terminal = true) (hlen : program.length ≤ cap)
    (hwords : ∀ x ∈ program, isWord x = true) (hpc : isWord (startPc.getD Config.defaultStartPc) = true) :
    launchWithin cap program startPc source s = .next (State.launched (program.map (BitVec.ofInt 64))
      (BitVec.ofInt 64 (startPc.getD Config.defaultStartPc)) source) := by
  simp [launchWithin, hs, Nat.not_lt.2 hlen, List.all_eq_true.2 hwords, hpc]

/-- The start pc of a launch is a word, given or left out. -/
theorem isWord_startPc {startPc : Option Int} (h : ∀ x, startPc = some x → wmin ≤ x ∧ x ≤ wmax) :
    isWord (startPc.getD Config.defaultStartPc) = true := by
  cases startPc with
  | none => decide
  | some x => exact isWord_iff.2 (h x rfl)

/-- Each cell of a launched state is the program's integer. -/
theorem toInt_read_launched {program : List Int} (pc : Word) (source : List (InputEvent Word)) {k : Nat}
    (hk : k < program.length) (h : wmin ≤ program[k] ∧ program[k] ≤ wmax) :
    ((State.launched (program.map (BitVec.ofInt 64)) pc source).mem.read k).toInt = program[k] := by
  have hread := Memory.read_ofWords 0 k (program.map (BitVec.ofInt 64)) (by rwa [List.length_map])
  rw [Nat.zero_add, List.getElem_map] at hread
  exact (congrArg BitVec.toInt hread).trans (toInt_ofInt h.1 h.2)

/-- Settles O46: the launch is accepted, and the state it makes has the program's integers in its cells. -/
theorem launchLoadsTheProgram : Obligations.LaunchLoadsTheProgram := by
  intro cap s program startPc source _ hs hlen hwords hstart
  refine ⟨_, launchWithin_of_fits source hs hlen (fun x hx => isWord_iff.2 (hwords x hx)) (isWord_startPc hstart),
    List.length_map _, fun k hk => toInt_read_launched _ source hk (hwords _ (List.getElem_mem hk)), ?_, ?_,
    rfl, rfl, rfl, rfl, rfl, rfl, rfl, step_of_not_inRange rfl⟩
  · rintro rfl
    rfl
  · rintro x rfl
    obtain ⟨hmin, hmax⟩ := hstart x rfl
    exact toInt_ofInt hmin hmax

end Sys2Proof.Machine
end

section
/-! SUPPORT. The encoder and the decoder are inverse (spec/30_encoding.md), and a running core executes the instruction whose
cells stand at the pc (spec/40_step.md section 2). -/

namespace Sys2Proof

/-! ### Decoding (R50 to R64) -/

/-- Behind a word of the encoder the decoder assembles the instruction of the word's fields. -/
theorem decode_encodeWord_cons (op : Opcode) (ma mb md : Mode) (ps : List Word) :
    decode (encodeWord op ma mb md :: ps) = assemble op ma mb md ps := by
  simp only [decode, classify_encodeWord]

theorem decode_encode_append (i : Instr) (rest : List Word) : decode (encode i ++ rest) = .instr i rest := by
  cases i <;> exact decode_encodeWord_cons _ _ _ _ _

/-- Settles O2: the arm the word selects takes the parameters back; every instruction is well-formed, so the premise is spare. -/
theorem decodeOfEncodeIsTheInstruction : Obligations.DecodeOfEncodeIsTheInstruction :=
  fun i rest _ => decode_encode_append i rest

/-- The types leave no instruction ill-formed. -/
theorem Instr.wellFormed_eq_true (i : Instr) : i.wellFormed = true := by
  cases i <;> exact Laws.fields_wellFormed rfl _ _ _

/-- Settles O3: the decoder takes apart only what the encoder makes. -/
theorem decodedCellsAreTheEncoding : Obligations.DecodedCellsAreTheEncoding :=
  fun _ _ i h => ⟨eq_encode_append_of_decode h, i.wellFormed_eq_true⟩

/-- Settles O1: each word is evaluated by the decoder. -/
theorem wordsOfTheVectorsDecode : Obligations.WordsOfTheVectorsDecode := by
  unfold Obligations.WordsOfTheVectorsDecode
  decide

theorem length_encode_le (i : Instr) : (encode i).length ≤ 4 := by
  cases i <;> simp [encode]

theorem encode_ne_nil (i : Instr) : encode i ≠ [] := by
  cases i <;> simp [encode]

end Sys2Proof

namespace Sys2Proof.Machine

/-! ### The instruction at the pc (spec/40_step.md section 2) -/

theorem fetch_of_decode {s : State} {i : Instr} {rest : List Word} (hpc : s.InRange s.pc)
    (h : decode (fetchCells s s.pc) = .instr i rest) : fetch s = .instr i := by
  simp only [fetch, if_pos hpc, h]

/-- Settles O6: the fetch answers what the decoder reads. -/
theorem stepRunsTheDecodedInstruction : Obligations.StepRunsTheDecodedInstruction :=
  fun _ _ _ hs hpc h => step_of_instr hs (fetch_of_decode hpc h)

/-- At most four words that stand at the pc are the first cells fetched. -/
theorem exists_fetchCells_eq_append {s : State} {ws : List Word} (h : HoldsAtPc s ws) (hws : ws.length ≤ 4) :
    ∃ rest, ws ++ rest = fetchCells s s.pc := by
  obtain ⟨h0, hcells⟩ := h
  refine List.prefix_iff_getElem?.2 fun k hk => ?_
  obtain ⟨hin, hread⟩ := hcells k hk
  rw [getElem?_fetchCells (by omega) (by unfold cellIndex; omega), hread]

/-- An instruction whose encoding stands at the pc is fetched; `holdsAtPc_of_fetch` is the converse. -/
theorem fetch_of_holdsAtPc {s : State} {i : Instr} (h : HoldsAtPc s (encode i)) : fetch s = .instr i := by
  have hpc := inRange_pc_of_holdsAtPc h (encode_ne_nil i)
  obtain ⟨rest, hcells⟩ := exists_fetchCells_eq_append h (length_encode_le i)
  exact fetch_of_decode hpc (hcells ▸ decode_encode_append i rest)

/-- Settles O7: the cells at the pc decode to the instruction, which the step executes. -/
theorem stepRunsTheInstructionStoredAtThePc : Obligations.StepRunsTheInstructionStoredAtThePc :=
  fun _ _ hs h => step_of_instr hs (fetch_of_holdsAtPc h)

/-- Settles O14: an instruction has at most four cells, and `N` leaves room for four. -/
theorem sequentialPcNeverWraps : Obligations.SequentialPcNeverWraps :=
  fun _ i hc hpc => toInt_pc_add hc hpc (length_encode_le i)

/-! ### HALT (spec/45_halt.md) -/

/-- The eight HALT words are the encoder's. -/
theorem exists_eq_encodeWord_halt {w : Word}
    (h : w.toInt ∈ ([99, 199, 1099, 1199, 10099, 10199, 11099, 11199] : List Int)) :
    ∃ ma mb md, w = encodeWord .halt ma mb md := by
  have htable : w.toInt ∈ (Opcode.words .halt).map BitVec.toInt := h
  exact Opcode.mem_words.1 ((List.mem_map_of_injective fun _ _ => BitVec.eq_of_toInt_eq).1 htable)

theorem holdsAtPc_of_memRead {s : State} {w : Word} (h : memRead s s.pc = .ok w) : HoldsAtPc s [w] := by
  obtain ⟨⟨h0, hN⟩, hread⟩ := memRead_ok_iff.1 h
  refine ⟨h0, fun k hk => ?_⟩
  obtain rfl : k = 0 := by simpa using hk
  exact ⟨by simpa using hN, hread⟩

theorem cellsKept_of_mem_kept {s t : State} (hm : t.mem = s.mem) (hn : t.size = s.size) : CellsKept s t :=
  fun _ => memRead_congr hn fun _ => by rw [hm]

/-- Settles O36: HALT has no parameter cell, so its word alone is its encoding. -/
theorem haltEndsTheRunWhereItStands : Obligations.HaltEndsTheRunWhereItStands := by
  refine ⟨fun s ma mb md => ⟨_, exec_halt ma mb md s, rfl, rfl, cellsKept_of_mem_kept rfl rfl, rfl, rfl, rfl, rfl,
    rfl, rfl⟩, fun s w hs hr hw => ?_⟩
  obtain ⟨ma, mb, md, rfl⟩ := exists_eq_encodeWord_halt hw
  exact step_of_instr hs (fetch_of_holdsAtPc (i := .halt ma mb md) (holdsAtPc_of_memRead hr))

end Sys2Proof.Machine
end

section
/-! SUPPORT. Everything a step can do, with the effects of `exec` and the waiting core among it, and what follows for
every step: memory (spec/20_memory.md), the pc against the status (spec/10_state.md) and the ports (spec/42_io.md). -/

namespace Sys2Proof.Machine

/-! ### The transitions -/

/-- What one step can make of a state.  What a waiting core then does is the matter of `awaitInput_cases`. -/
inductive Transition (s : State) : State → Prop where
  | ended (h : s.status.terminal = true) : Transition s s
  | fellOff (hs : s.status = .running) (hpc : ¬ s.InRange s.pc) : Transition s (fallOffEnd s)
  | raised (t : Trap) (hs : s.status = .running) : Transition s (raise t s)
  | stored (dst r : Word) (hs : s.status = .running) (hd : s.InRange dst) :
      Transition s (advance 4 { s with mem := s.mem.write (cellIndex dst) r })
  | jumped (w : Word) (hs : s.status = .running) : Transition s (setPc w s)
  | emitted (v : Word) (hs : s.status = .running) : Transition s (advance 2 (emit v s))
  | halted (hs : s.status = .running) : Transition s (halt s)
  | asked (dst : Word) (hs : s.status = .running) : Transition s (awaitInput dst (requestInput s))
  | resumed (dst : Word) (hs : s.status = .waitInput) : Transition s (awaitInput dst s)
  | stranded (hs : s.status = .waitInput) (h : ¬ s.InRange (s.pc + 1#64)) :
      Transition s (raise (.addressFault (s.pc + 1#64)) s)

theorem Effect.transition {i : Instr} {s t : State} (he : Effect i s t) (hs : s.status = .running) : Transition s t := by
  cases he with
  | raised t => exact .raised t hs
  | stored dst r hd => exact .stored dst r hs hd
  | jumped w => exact .jumped w hs
  | emitted v => exact .emitted v hs
  | halted => exact .halted hs
  | asked _ _ _ dst => exact .asked dst hs

theorem resumeInput_transition {s : State} (hs : s.status = .waitInput) : Transition s (resumeInput s) := by
  obtain ⟨dst, -, e⟩ | ⟨h, e⟩ := resumeInput_cases s <;> rw [e]
  · exact .resumed dst hs
  · exact .stranded hs h

/-- Every state has a step, and it is a transition. -/
theorem exists_step_transition (s : State) : ∃ t, step s = .next t ∧ Transition s t := by
  obtain ⟨hs, hpc, e⟩ | ⟨t, hs, -, -, e⟩ | ⟨i, hs, -, -, e⟩ | ⟨hs, e⟩ | ⟨hs, e⟩ := step_cases s
  · exact ⟨_, e, .fellOff hs hpc⟩
  · exact ⟨_, e, .raised t hs⟩
  · obtain ⟨u, hu, he⟩ := exec_cases i s
    exact ⟨u, e.trans hu, he.transition hs⟩
  · exact ⟨_, e, resumeInput_transition hs⟩
  · exact ⟨_, e, .ended hs⟩

theorem step_transition {s t : State} (h : step s = .next t) : Transition s t := by
  obtain ⟨u, hu, htr⟩ := exists_step_transition s
  cases hu.symm.trans h
  exact htr

/-- Settles O13: every case of a step answers a state. -/
theorem everyStepAnswersANextState : Obligations.EveryStepAnswersANextState := fun s =>
  have ⟨t, ht, _⟩ := exists_step_transition s
  ⟨t, ht⟩

/-- Settles O12: an ended run is a fixed point of the step, so of any number of steps. -/
theorem terminalStateIsFrozen : Obligations.TerminalStateIsFrozen := by
  intro s k h
  have hs := Status.terminal_iff.2 h
  refine ⟨?_, _, readResult_of_terminal hs, rfl, rfl, rfl, rfl, rfl⟩
  induction k with
  | zero => rfl
  | succ k ih =>
    have hstep : Host.Core.step core s = .next s := step_of_terminal hs
    simp only [Host.Core.run, hstep, ih]

/-! ### Memory (spec/20_memory.md R42, R47) -/

/-- Memory keeps its length, and its cells are as before but for at most one, which lies in range. -/
def AtMostOneCellWritten (s t : State) : Prop :=
  t.size = s.size ∧ (t.mem = s.mem ∨ ∃ a v, s.InRange a ∧ t.mem = s.mem.write (cellIndex a) v)

theorem AtMostOneCellWritten.of_mem_kept {s t : State} (hn : t.size = s.size) (hm : t.mem = s.mem) :
    AtMostOneCellWritten s t :=
  ⟨hn, .inl hm⟩

theorem AtMostOneCellWritten.of_write {s t : State} {a v : Word} (ha : s.InRange a) (hn : t.size = s.size)
    (hm : t.mem = s.mem.write (cellIndex a) v) : AtMostOneCellWritten s t :=
  ⟨hn, .inr ⟨a, v, ha, hm⟩⟩

theorem awaitInput_atMostOneCellWritten (dst : Word) (s : State) : AtMostOneCellWritten s (awaitInput dst s) := by
  obtain ⟨-, e⟩ | ⟨v, rest, -, hd, e⟩ | ⟨v, rest, -, -, e⟩ | ⟨rest, -, e⟩ := awaitInput_cases dst s <;> rw [e]
  · exact .of_mem_kept rfl rfl
  · exact .of_write hd rfl rfl
  · exact .of_mem_kept rfl rfl
  · exact .of_mem_kept rfl rfl

theorem Transition.atMostOneCellWritten {s t : State} (h : Transition s t) : AtMostOneCellWritten s t := by
  cases h with
  | stored dst r _ hd => exact .of_write hd rfl rfl
  | asked dst => exact awaitInput_atMostOneCellWritten dst (requestInput s)
  | resumed dst => exact awaitInput_atMostOneCellWritten dst s
  | ended | fellOff | raised | jumped | emitted | halted | stranded => exact .of_mem_kept rfl rfl

/-- Where one cell is written, an address that reads differently is its address. -/
theorem eq_of_memRead_ne {s t : State} {a v x : Word} (hm : s.mem.wf = true) (ha : s.InRange a) (hn : t.size = s.size)
    (hw : t.mem = s.mem.write (cellIndex a) v) (hx : memRead t x ≠ memRead s x) : x = a := by
  by_contra hxa
  refine hx (memRead_congr hn fun hxr => ?_)
  rw [hw, Memory.read_write_other hm fun e => hxa (cellIndex_inj hxr ha e)]

/-- Settles O18: both addresses are that of the one cell a step writes. -/
theorem aStepWritesAtMostOneCell : Obligations.AStepWritesAtMostOneCell := by
  intro s t x y hm hstep hx hy
  obtain ⟨hn, hkept | ⟨a, v, ha, hw⟩⟩ := (step_transition hstep).atMostOneCellWritten
  · exact absurd (cellsKept_of_mem_kept hkept hn x) hx
  · exact (eq_of_memRead_ne hm ha hn hw hx).trans (eq_of_memRead_ne hm ha hn hw hy).symm

theorem AtMostOneCellWritten.canonicalMemory {s t : State} (h : AtMostOneCellWritten s t) (hs : s.CanonicalMemory) :
    t.CanonicalMemory := by
  obtain ⟨hwf, hbelow⟩ := hs
  obtain ⟨hn, hkept | ⟨a, v, ha, hw⟩⟩ := h
  · exact ⟨by rwa [hkept], by rwa [hkept, hn]⟩
  · exact ⟨by rw [hw]; exact Memory.write_wf hwf, by rw [hw, hn]; exact Memory.write_below hbelow (cellIndex_lt ha)⟩

/-- Settles O40: writing one in-range cell keeps the canonical form, and no step changes `N`. -/
theorem everyStepKeepsMemoryCanonical : Obligations.EveryStepKeepsMemoryCanonical := by
  intro s t hs hstep
  have hcells := (step_transition hstep).atMostOneCellWritten
  refine ⟨hcells.canonicalMemory hs, fun hc => ?_⟩
  obtain ⟨hn, -⟩ := hcells
  rwa [State.WithinCapacity, hn]

/-! ### The pc against the status (spec/10_state.md sections 3, 4 and 7) -/

theorem awaitInput_fetch_kept {s : State} {dst : Word} (ht : (awaitInput dst s).status ≠ .running) :
    fetch (awaitInput dst s) = fetch s := by
  obtain ⟨-, e⟩ | ⟨v, rest, -, -, e⟩ | ⟨v, rest, -, -, e⟩ | ⟨rest, -, e⟩ := awaitInput_cases dst s <;> rw [e] at ht ⊢
  · exact fetch_congr rfl rfl rfl
  · exact absurd rfl ht
  · exact fetch_congr rfl rfl rfl
  · exact fetch_congr rfl rfl rfl

/-- A core that does not run on still stands at what it fetched. -/
theorem Transition.fetch_kept {s t : State} (h : Transition s t) (ht : t.status ≠ .running) : fetch t = fetch s := by
  cases h with
  | stored _ _ hs | jumped _ hs | emitted _ hs => exact absurd hs ht
  | asked => exact (awaitInput_fetch_kept ht).trans (fetch_congr rfl rfl rfl)
  | resumed => exact awaitInput_fetch_kept ht
  | ended | fellOff | raised | halted | stranded => exact fetch_congr rfl rfl rfl

/-- A step into FAULTED from a run that has not ended is a step inside memory. -/
theorem inRange_pc_of_step_faulted {s t : State} (hfits : s.PcFitsStatus) (hlive : s.status.terminal = false)
    (hstep : step s = .next t) (ht : t.status = .faulted) : s.InRange s.pc := by
  obtain ⟨hwait, -⟩ := hfits
  obtain hs | hs := Status.terminal_eq_false_iff.1 hlive
  · by_contra hpc
    cases (step_of_not_inRange hs hpc).symm.trans hstep
    exact nomatch ht
  · obtain ⟨_, _, _, _, hfetch⟩ := hwait hs
    exact (decode_of_fetch hfetch).1

/-- Settles O43: a new status says where the pc stood before the step, and it still stands there. -/
theorem everyStepKeepsThePcWhereTheStatusSays : Obligations.EveryStepKeepsThePcWhereTheStatusSays := by
  intro s t hfits hstep
  cases hlive : s.status.terminal with
  | true =>
    cases (step_of_terminal hlive).symm.trans hstep
    exact hfits
  | false =>
    have hnext := step_nextStatus hstep hlive
    have hfetch : t.status ≠ .running → fetch t = fetch s := (step_transition hstep).fetch_kept
    have hrange (ht : t.status ≠ .running) : ¬ t.InRange t.pc ↔ ¬ s.InRange s.pc := by
      rw [← fetch_eq_offEnd_iff, hfetch ht, fetch_eq_offEnd_iff]
    refine ⟨fun ht => ?_, fun ht => ?_, fun ht => ?_, fun ht => ?_⟩
    · rw [hfetch (by simp [ht])]
      rw [ht] at hnext
      cases hnext with
      | waiting hs =>
        obtain ⟨hwait, -⟩ := hfits
        exact hwait hs
      | asked ma mb md dst hf => exact ⟨ma, mb, md, dst, hf⟩
    · rw [hfetch (by simp [ht])]
      rw [ht] at hnext
      cases hnext with
      | halted _ ma mb md hf => exact ⟨ma, mb, md, hf⟩
    · rw [hrange (by simp [ht])]
      rw [ht] at hnext
      cases hnext with
      | offEnd _ hpc => exact hpc
    · exact not_not.1 fun hout =>
        (hrange (by simp [ht])).1 hout (inRange_pc_of_step_faulted hfits hlive hstep ht)

/-! ### The unbounded machine (decision D1) -/

/-- A step that no overflow has ended is judged alike by the machine of unbounded integers. -/
theorem widthAgrees_none {t : State} (h : t.faultKind = .overflowFault → t.status ≠ .faulted) : WidthAgrees none t :=
  ⟨fun _ _ => rfl, fun hs hk => absurd hs (h hk)⟩

/-- Settles O45: the commuting square at unbounded width, where the two machines agree short of an overflow. -/
theorem unboundedMachineDiffersOnlyByOverflow : Obligations.UnboundedMachineDiffersOnlyByOverflow := by
  rintro s t ⟨hm, -⟩ hc hfits hstep hover
  exact refStep_toRef hm hc hfits hstep fun hs => widthAgrees_none (hover (by simp [hs]))

end Sys2Proof.Machine
end

section
/-! SUPPORT. The instructions that complete: ADD and MUL (spec/41_arithmetic.md), the conditional jumps (spec/43_jumps.md) and
OUT (spec/42_io.md section 2). -/

namespace Sys2Proof.Machine

/-! ### ADD and MUL -/

/-- An instruction whose exact result is a word completes and stores that integer. -/
theorem binary_frame_of_narrow {s : State} {a b : Source} {va vb op dst : Word} {r : Int}
    {f : Word → Word → Except Trap Word} (hm : s.mem.wf = true) (ha : SourceValue s a va) (hb : SourceValue s b vb)
    (hf : f va vb = narrow op r) (hmin : wmin ≤ r) (hmax : r ≤ wmax) (hd : s.InRange dst) :
    ∃ w, memRead (binary f a b dst s) dst = .ok w ∧ w.toInt = r ∧ (binary f a b dst s).pc = s.pc + 4#64 ∧
      CellsKeptBut dst s (binary f a b dst s) ∧ ControlKept s (binary f a b dst s) ∧
      PortsKept s (binary f a b dst s) := by
  obtain ⟨hread, hframe⟩ := binary_frame hm ha hb (hf.trans (narrow_of_isWord hmin hmax)) hd
  exact ⟨_, hread, toInt_ofInt hmin hmax, hframe⟩

/-- Settles O19: the sum narrows to a word, which the write stores. -/
theorem addStoresTheExactSum : Obligations.AddStoresTheExactSum := by
  intro s a b md va vb dst hm ha hb hmin hmax hd
  obtain ⟨r, hr⟩ := binary_frame_of_narrow (f := sumOf) hm ha hb rfl hmin hmax hd
  exact ⟨_, r, exec_add a b md dst s, hr⟩

/-- Settles O20: the product narrows to a word, which the write stores. -/
theorem mulStoresTheExactProduct : Obligations.MulStoresTheExactProduct := by
  intro s a b md va vb dst hm ha hb hmin hmax hd
  obtain ⟨r, hr⟩ := binary_frame_of_narrow (f := productOf) hm ha hb rfl hmin hmax hd
  exact ⟨_, r, exec_mul a b md dst s, hr⟩

/-! ### The conditional jumps -/

theorem jump_of_not_taken {c : Word → Bool} {a b : Source} {s : State} {va vb : Word} (ha : SourceValue s a va)
    (hb : SourceValue s b vb) (hc : c va = false) : jump c a b s = setPc (s.pc + 3#64) s := by
  rw [jump, withSources_of_values ha hb, hc]
  rfl

theorem setPc_frame (w : Word) (s : State) :
    CellsKept s (setPc w s) ∧ ControlKept s (setPc w s) ∧ PortsKept s (setPc w s) :=
  ⟨cellsKept_of_mem_kept rfl rfl, ⟨rfl, rfl, rfl, rfl, rfl⟩, rfl, rfl⟩

/-- With both sources resolved a jump completes, taken or not. -/
theorem jump_frame {c : Word → Bool} {a b : Source} {s : State} {va vb : Word} (ha : SourceValue s a va)
    (hb : SourceValue s b vb) :
    (c va = true → (jump c a b s).pc = vb) ∧ (c va = false → (jump c a b s).pc = s.pc + 3#64) ∧
      CellsKept s (jump c a b s) ∧ ControlKept s (jump c a b s) ∧ PortsKept s (jump c a b s) := by
  cases hc : c va with
  | true =>
    rw [jump_of_taken ha hb hc]
    exact ⟨fun _ => rfl, nofun, setPc_frame vb s⟩
  | false =>
    rw [jump_of_not_taken ha hb hc]
    exact ⟨nofun, fun _ => rfl, setPc_frame _ s⟩

/-- Settles O25: the condition is that the value is strictly positive. -/
theorem jumpIfTrueJumpsExactlyOnPositiveValues : Obligations.JumpIfTrueJumpsExactlyOnPositiveValues := by
  intro s a b md va vb ha hb
  obtain ⟨htaken, hnot, hframe⟩ := jump_frame (c := isPositive) ha hb
  exact ⟨_, exec_jumpIfTrue a b md s, fun h => htaken (decide_eq_true h),
    fun h => hnot (decide_eq_false (not_lt_of_ge h)), hframe⟩

/-- Settles O26: the condition is that the value is 0. -/
theorem jumpIfFalseJumpsExactlyOnZero : Obligations.JumpIfFalseJumpsExactlyOnZero := by
  intro s a b md va vb ha hb
  obtain ⟨htaken, hnot, hframe⟩ := jump_frame (c := isZero) ha hb
  exact ⟨_, exec_jumpIfFalse a b md s, fun h => htaken (decide_eq_true h), fun h => hnot (decide_eq_false h), hframe⟩

/-! ### OUT -/

theorem outputSequence_emit (v : Word) (s : State) : (emit v s).outputSequence = s.outputSequence ++ [v] := by
  simp [State.outputSequence, PortEvent.emitted?]

/-- Settles O33: the resolved source is emitted, and then the pc advances. -/
theorem outputEmitsTheValueOfItsSource : Obligations.OutputEmitsTheValueOfItsSource := by
  intro s a mb md va ha
  refine ⟨_, exec_output a mb md s, ?_⟩
  rw [withSource_of_value ha]
  exact ⟨rfl, outputSequence_emit va s, rfl, rfl, cellsKept_of_mem_kept rfl rfl, rfl, rfl, rfl, rfl, rfl⟩

end Sys2Proof.Machine
end

section
/-! SUPPORT. IN and the waiting core (spec/42_io.md section 1): a value stored, no answer yet, a value lost, and the record of
port transactions along every step (spec/10_state.md section 8). -/

namespace Sys2Proof.Machine

/-! ### A value arrives -/

/-- A core that waits in `s` has taken the value `v` for its destination `dst`, and runs on in `t`. -/
structure InputCompleted (dst v : Word) (rest : List (InputEvent Word)) (s t : State) : Prop where
  read : memRead t dst = .ok v
  cells : CellsKeptBut dst s t
  pc : t.pc = s.pc + 2#64
  status : t.status = .running
  size : t.size = s.size
  input : t.input = rest
  trace : t.trace = s.trace ++ [.answer (.value v)]
  faultKind : t.faultKind = s.faultKind
  faultPc : t.faultPc = s.faultPc
  faultInfo : t.faultInfo = s.faultInfo

theorem awaitInput_completed {s : State} {dst v : Word} {rest : List (InputEvent Word)} (hm : s.mem.wf = true)
    (hd : s.InRange dst) (h : s.input = .answer (.value v) :: rest) :
    InputCompleted dst v rest s (awaitInput dst s) := by
  rw [awaitInput_of_value h hd]
  exact ⟨memRead_write_same hm hd, fun _ => memRead_write_other hm hd, rfl, rfl, rfl, rfl, rfl, rfl, rfl, rfl⟩

/-- Settles O28: an IN whose answer is ready is a request and then a waiting core's completion (R102). -/
theorem inputStoresTheValueTaken : Obligations.InputStoresTheValueTaken := by
  intro s ma mb md dst v rest hm hd h
  have hdone := awaitInput_completed (s := requestInput s) hm hd h
  refine ⟨_, exec_input ma mb md dst s, hdone.read, hdone.pc, hdone.status, hdone.input, ?_, hdone.cells, hdone.size,
    hdone.faultKind, hdone.faultPc, hdone.faultInfo⟩
  rw [hdone.trace, requestInput_trace, List.append_assoc, List.singleton_append]

/-- Settles O29: the request is made, and a core with nothing to hear only waits. -/
theorem inputWithoutAnAnswerWaits : Obligations.InputWithoutAnAnswerWaits := by
  intro s ma mb md dst h
  refine ⟨_, exec_input ma mb md dst s, ?_⟩
  rw [awaitInput_of_nothing (s := requestInput s) h]
  exact ⟨rfl, rfl, rfl, rfl, rfl, rfl, rfl, rfl, rfl⟩

/-- Settles O32: the answer is taken before the destination is checked. -/
theorem inputWithBadDestinationLosesItsValue : Obligations.InputWithBadDestinationLosesItsValue := by
  intro s ma mb md dst v rest hd h
  refine ⟨_, exec_input ma mb md dst s, abortedWith_input_of_bad_destination h hd, ?_⟩
  rw [awaitInput_of_lost_value (s := requestInput s) h hd]
  simp

/-! ### The waiting core -/

theorem step_of_waiting {s : State} {dst : Word} (hs : s.status = .waitInput)
    (hdst : memRead s (s.pc + 1#64) = .ok dst) : step s = .next (awaitInput dst s) := by
  rw [step_of_waitInput hs, resumeInput_of_memRead hdst]

/-- Settles O30: the step is the pending IN's, which waits or completes by what its source says. -/
theorem waitingCoreCompletesOnlyOnAnAnswer : Obligations.WaitingCoreCompletesOnlyOnAnAnswer := by
  intro s dst hm hs hdst
  have hstep := step_of_waiting hs hdst
  refine ⟨fun h => by rw [hstep, awaitInput_of_nothing h], fun v rest h hd => ?_⟩
  have hdone := awaitInput_completed hm hd h
  exact ⟨_, hstep, hdone.read, hdone.cells, hdone.pc, hdone.status, hdone.size, hdone.input, hdone.trace,
    hdone.faultKind⟩

theorem deliver_of_waiting {s : State} (hs : s.status = .waitInput) (h : s.input = []) (a : Answer Word) :
    deliver a s = .next { s with input := [.answer a] } := by
  simp [deliver, hs, h]

theorem deliver_of_not_waiting {s : State} (hs : s.status ≠ .waitInput) (a : Answer Word) :
    deliver a s = .refused .answerWithoutRequest :=
  if_neg fun h => hs h.1

/-- An answer appended to the record is one answer more and no request. -/
theorem sequences_of_answered {s t : State} {a : Answer Word} (h : t.trace = s.trace ++ [.answer a]) :
    t.inputSequence = s.inputSequence ++ [a] ∧ t.requests = s.requests := by
  simp [State.inputSequence, State.requests, h, PortEvent.answered?]

/-- Settles O34: the answer delivered is all the waiting core has to hear. -/
theorem deliveredAnswerIsTheOneTaken : Obligations.DeliveredAnswerIsTheOneTaken := by
  refine ⟨fun s v dst hm hs hinput hdst hd => ?_, fun _ a hs => deliver_of_not_waiting hs a⟩
  have hdone := awaitInput_completed (s := { s with input := [.answer (.value v)] }) hm hd rfl
  exact ⟨_, _, deliver_of_waiting hs hinput (.value v), step_of_waiting hs hdst, hdone.status, hdone.read,
    sequences_of_answered hdone.trace⟩

/-! ### The record of port transactions (R20, R25) -/

/-- What a step adds to the record of port transactions, what it takes from the source, and whether the core waits. -/
inductive PortStep (s t : State) : Prop where
  | silent (htrace : t.trace = s.trace) (hinput : t.input = s.input ∨ s.input = .wait :: t.input)
      (hwait : t.status = .waitInput ↔ s.status = .waitInput)
  | emitted (v : Word) (htrace : t.trace = s.trace ++ [.emit v]) (hinput : t.input = s.input)
      (hs : s.status = .running) (ht : t.status = .running)
  | asked (htrace : t.trace = s.trace ++ [.request]) (hinput : t.input = s.input.tail)
      (hs : s.status = .running) (ht : t.status = .waitInput)
  | answered (a : Answer Word) (htrace : t.trace = s.trace ++ [.answer a]) (hinput : s.input = .answer a :: t.input)
      (hs : s.status = .waitInput) (ht : t.status ≠ .waitInput)
  | askedAndAnswered (a : Answer Word) (htrace : t.trace = s.trace ++ [.request, .answer a])
      (hinput : s.input = .answer a :: t.input) (hs : s.status = .running) (ht : t.status ≠ .waitInput)
  | stranded (htrace : t.trace = s.trace) (hinput : t.input = s.input) (hs : s.status = .waitInput)
      (hpc : ¬ s.InRange (s.pc + 1#64))

/-- A waiting core waits on, or takes one answer and waits no longer. -/
theorem awaitInput_answered (dst : Word) (s : State) :
    ((s.input = [] ∨ ∃ rest, s.input = .wait :: rest) ∧ awaitInput dst s = { s with input := s.input.tail }) ∨
    (∃ a, s.input = .answer a :: (awaitInput dst s).input ∧ (awaitInput dst s).trace = s.trace ++ [.answer a] ∧
      (awaitInput dst s).status ≠ .waitInput) := by
  obtain h | ⟨v, rest, h, -, e⟩ | ⟨v, rest, h, -, e⟩ | ⟨rest, h, e⟩ := awaitInput_cases dst s
  · exact .inl h
  · rw [e]; exact .inr ⟨_, h, rfl, nofun⟩
  · rw [e]; exact .inr ⟨_, h, rfl, nofun⟩
  · rw [e]; exact .inr ⟨_, h, rfl, nofun⟩

theorem portStep_awaitInput {s : State} (hs : s.status = .waitInput) (dst : Word) : PortStep s (awaitInput dst s) := by
  obtain ⟨h, e⟩ | ⟨a, hinput, htrace, ht⟩ := awaitInput_answered dst s
  · rw [e]
    refine .silent rfl ?_ Iff.rfl
    obtain h | ⟨rest, h⟩ := h
    · exact .inl (by simp [h])
    · exact .inr (by simp [h])
  · exact .answered a htrace hinput hs ht

theorem portStep_requestInput {s : State} (hs : s.status = .running) (dst : Word) :
    PortStep s (awaitInput dst (requestInput s)) := by
  obtain ⟨-, e⟩ | ⟨a, hinput, htrace, ht⟩ := awaitInput_answered dst (requestInput s)
  · rw [e]
    exact .asked rfl rfl hs rfl
  · exact .askedAndAnswered a (by simp [htrace]) hinput hs ht

theorem Transition.portStep {s t : State} (h : Transition s t) : PortStep s t := by
  have running_silent {u : State} (hs : s.status = .running) (hu : u.status ≠ .waitInput) (htrace : u.trace = s.trace)
      (hinput : u.input = s.input) : PortStep s u :=
    .silent htrace (.inl hinput) (iff_of_false hu (by simp [hs]))
  cases h with
  | ended => exact .silent rfl (.inl rfl) Iff.rfl
  | fellOff hs | raised _ hs | halted hs => exact running_silent hs nofun rfl rfl
  | stored _ _ hs | jumped _ hs => exact running_silent hs (by simp [hs]) rfl rfl
  | emitted v hs => exact .emitted v rfl rfl hs hs
  | asked dst hs => exact portStep_requestInput hs dst
  | resumed dst hs => exact portStep_awaitInput hs dst
  | stranded hs hpc => exact .stranded rfl rfl hs hpc

/-- Settles O35: the cases of a step by what it adds to the record. -/
theorem portTransactionsAreOnlyAppended : Obligations.PortTransactionsAreOnlyAppended := by
  intro s t hstep
  cases (step_transition hstep).portStep with
  | silent htrace hinput => exact .inl ⟨htrace, hinput⟩
  | emitted v htrace hinput => exact .inr (.inl ⟨v, htrace, hinput⟩)
  | asked htrace hinput _ ht => exact .inr (.inr (.inl ⟨htrace, hinput, ht⟩))
  | answered a htrace hinput hs => exact .inr (.inr (.inr ⟨a, hinput, .inl ⟨htrace, hs⟩⟩))
  | askedAndAnswered a htrace hinput hs => exact .inr (.inr (.inr ⟨a, hinput, .inr ⟨htrace, hs⟩⟩))
  | stranded htrace hinput => exact .inl ⟨htrace, .inl hinput⟩

/-! ### The outstanding request (R20) -/

/-- A waiting core whose pc is at an INPUT has the cell of its destination. -/
theorem inRange_parameter_of_waiting {s : State} (hc : s.WithinCapacity) (hfits : s.PcFitsStatus)
    (hs : s.status = .waitInput) : s.InRange (s.pc + 1#64) := by
  obtain ⟨hwait, -⟩ := hfits
  obtain ⟨ma, mb, md, dst, hfetch⟩ := hwait hs
  have hdst := memRead_pc_add (k := 1) hc (holdsAtPc_of_fetch hfetch) (by simp [encode]) (by decide)
  exact (memRead_ok_iff.1 hdst).1

theorem PortStep.balancedRequests {s t : State} (h : PortStep s t) (hs : s.BalancedRequests)
    (hdst : s.status = .waitInput → s.InRange (s.pc + 1#64)) : t.BalancedRequests := by
  unfold State.BalancedRequests State.requests State.inputSequence at hs ⊢
  cases h with
  | silent htrace _ hwait => simpa only [htrace, hwait] using hs
  | emitted v htrace _ hrun ht => simpa [htrace, ht, hrun, List.filterMap_cons, PortEvent.answered?] using hs
  | asked htrace _ hrun ht => simpa [htrace, ht, hrun, List.filterMap_cons, PortEvent.answered?] using hs
  | answered a htrace _ hwait ht => simpa [htrace, ht, hwait, List.filterMap_cons, PortEvent.answered?] using hs
  | askedAndAnswered a htrace _ hrun ht =>
    simpa [htrace, ht, hrun, List.filterMap_cons, PortEvent.answered?] using hs
  | stranded _ _ hwait hpc => exact absurd (hdst hwait) hpc

/-- Settles O42: a request makes the core wait, and the answer to it ends the wait. -/
theorem everyStepKeepsRequestsBalanced : Obligations.EveryStepKeepsRequestsBalanced := fun _ _ hc hfits hs hstep =>
  (step_transition hstep).portStep.balancedRequests hs (inRange_parameter_of_waiting hc hfits)

end Sys2Proof.Machine
end

section
/-! SUPPORT. A launch (spec/70_reset_and_hazards.md section 1): the state after it meets the invariants, what it refuses, and
that it does not depend on the run before it. -/

namespace Sys2Proof.Machine

/-! ### The state after a launch -/

theorem launched_canonicalMemory (words : List Word) (pc : Word) (source : List (InputEvent Word)) :
    (State.launched words pc source).CanonicalMemory := by
  have hbelow := Memory.ofWords_below 0 words
  rw [Nat.zero_add] at hbelow
  exact ⟨Memory.ofWords_wf words, hbelow⟩

/-- All invariants at once, for a program within the bound of every capacity (R7). -/
theorem launched_invariants {words : List Word} (pc : Word) (source : List (InputEvent Word))
    (h : (words.length : Int) ≤ wmax - 3) :
    (State.launched words pc source).CanonicalMemory ∧ (State.launched words pc source).WithinCapacity ∧
      (State.launched words pc source).CoherentReport ∧ (State.launched words pc source).BalancedRequests ∧
      (State.launched words pc source).PcFitsStatus :=
  ⟨launched_canonicalMemory words pc source, h, ⟨fun _ => ⟨rfl, rfl, rfl⟩, nofun⟩, rfl, nofun, nofun, nofun, nofun⟩

/-- An accepted launch was given in an ended run, and makes a launched state of a program that fits. -/
theorem launched_of_launchWithin {cap : Nat} {s t : State} {program : List Int} {startPc : Option Int}
    {source : List (InputEvent Word)} (h : launchWithin cap program startPc source s = .next t) :
    program.length ≤ cap ∧ ∃ pc, t = State.launched (program.map (BitVec.ofInt 64)) pc source := by
  unfold launchWithin at h
  split_ifs at h with hlive hlong hwords
  cases h
  exact ⟨Nat.le_of_not_lt hlong, _, rfl⟩

/-- Settles O47: an accepted launch fits the capacity, so its state meets the invariants. -/
theorem launchedStateMeetsTheInvariants : Obligations.LaunchedStateMeetsTheInvariants := by
  intro cap s t program startPc source hcap h
  obtain ⟨hlen, pc, rfl⟩ := launched_of_launchWithin h
  exact launched_invariants pc source (by rw [List.length_map]; omega)

/-- Settles O39: reset is the launch of the empty program. -/
theorem resetMeetsTheInvariants : Obligations.ResetMeetsTheInvariants := by
  obtain ⟨hmem, hcap, hreport, hrequests, hpc⟩ := launched_invariants (words := []) 0#64 [] (by decide)
  exact ⟨hmem, hcap, hreport, hrequests, hpc, rfl, rfl⟩

/-! ### Refused launches (R172, R182) -/

theorem launchWithin_of_too_long {cap : Nat} {s : State} {program : List Int} (startPc : Option Int)
    (source : List (InputEvent Word)) (hs : s.status.terminal = true) (h : cap < program.length) :
    launchWithin cap program startPc source s = .refused .launchTooLong := by
  simp [launchWithin, hs, h]

theorem launchWithin_of_not_words {cap : Nat} {s : State} {program : List Int} {startPc : Option Int}
    (source : List (InputEvent Word)) (hs : s.status.terminal = true) (hlen : program.length ≤ cap)
    (h : ¬ ((∀ x ∈ program, isWord x = true) ∧ isWord (startPc.getD Config.defaultStartPc) = true)) :
    launchWithin cap program startPc source s = .refused .launchNotWords := by
  have hwords : ¬ (program.all isWord && isWord (startPc.getD Config.defaultStartPc)) = true := by
    rwa [Bool.and_eq_true, List.all_eq_true]
  unfold launchWithin
  rw [if_neg (by simp [hs]), if_neg (Nat.not_lt.2 hlen), if_neg hwords]

theorem not_isWord_of_lt_or_gt {x : Int} (h : x < wmin ∨ wmax < x) : ¬ isWord x = true := by
  rw [isWord_iff]
  omega

/-- Settles O48: the length is checked first, then the cells and the start pc. -/
theorem launchOfAnUnfitProgramIsRefused : Obligations.LaunchOfAnUnfitProgramIsRefused := by
  refine fun cap s program startPc source hs => ⟨launchWithin_of_too_long startPc source hs, fun hlen h => ?_⟩
  refine launchWithin_of_not_words source hs hlen fun ⟨hcells, hpc⟩ => ?_
  obtain ⟨x, hx, hbad⟩ | ⟨x, rfl, hbad⟩ := h
  · exact not_isWord_of_lt_or_gt hbad (hcells x hx)
  · exact not_isWord_of_lt_or_gt hbad hpc

theorem launchWithin_of_live {s : State} (hs : s.status.terminal = false) (cap : Nat) (program : List Int)
    (startPc : Option Int) (source : List (InputEvent Word)) :
    launchWithin cap program startPc source s = .refused .launchDuringRun :=
  if_pos hs

/-- A launch looks at the run before it only to see that it has ended. -/
theorem launchWithin_congr {s s' : State} (h : s'.status.terminal = s.status.terminal) (cap : Nat)
    (program : List Int) (startPc : Option Int) (source : List (InputEvent Word)) :
    launchWithin cap program startPc source s' = launchWithin cap program startPc source s := by
  simp only [launchWithin, h]

/-- Settles O49: the launch's answer depends on the state through its status being terminal. -/
theorem launchErasesThePreviousRun : Obligations.LaunchErasesThePreviousRun := by
  refine fun cap s program startPc source => ⟨fun s' t hs hs' h => ?_, fun hs => ?_⟩
  · exact (launchWithin_congr (hs'.trans hs.symm) cap program startPc source).trans h
  · exact launchWithin_of_live (Status.terminal_eq_false_iff.2 hs) cap program startPc source

end Sys2Proof.Machine
end
